-- ==== Sys2Proof/Word.lean ====
section
/-! DEFINITION. The units of data (spec/00_scope.md R6, spec/10_state.md R11, R13): the 16-bit Word of program memory,
the Val that registers and stack entries hold, the byte of the image and of the input stream, and register indices. -/

namespace Sys2Proof

/-- A Word: an unsigned 16-bit cell, 0..65535, bit 15 the most significant (R6, R11). -/
abbrev Word := BitVec 16

/-- A Val: a Word in 0..32767. A register or stack entry is a 16-bit slot whose bit 15 is always 0 (R11, R13), so its
15 low bits are all there is to hold; R13 says a model may type it so. DESIGN CHOICE, safe: notes/assumptions/1.md. -/
abbrev Val := BitVec 15

/-- A byte of the program image (R28) or of the input stream (R94). -/
abbrev Byte := BitVec 8

/-- The index of one of the 8 registers (R12). -/
abbrev RegIdx := Fin 8

/-- The Word that holds a Val: bit 15 clear (R6). -/
def wordOfVal (v : Val) : Word := BitVec.setWidth 16 v

end Sys2Proof
end

