-- ==== Sys2Proof/Config.lean ====
section
/-! DEFINITION. What an implementation fixes (spec/00_scope.md R4) and the parameters of a run (R5). No value of the
architecture is left free: the spec calls no result undefined. -/

namespace Sys2Proof

namespace Config

/-- `MOD`: the modulus of all arithmetic (R4). -/
abbrev modulus : Nat := 32768

/-- `VAL_MAX`: the greatest value a register or stack entry holds (R4). -/
abbrev valMax : Nat := 32767

/-- `REG_BASE`: the operand Word that refers to register 0 (R4). -/
abbrev regBase : Nat := 32768

/-- `REG_TOP`: the greatest register-reference Word (R4). -/
abbrev regTop : Nat := 32775

/-- `IP_RESET`: the instruction pointer after reset (R4). -/
abbrev ipReset : Nat := 0

end Config

/-- What follows the input bytes that State lists: the end of the stream (`EOF`), or a source that may still deliver
and has not ended (spec/48_io.md R92, R94). -/
inductive InputEnd where
  | ended
  | pending
  deriving DecidableEq, Repr

/-- The open parameters that a run takes as arguments (R5), with the spec's defaults. `IMAGE`, and with it `L`, is the
argument of `boot`. `INPUT` is the listed bytes and what follows them; the spec gives no default for it, and the one
here is that of `State.reset` (DESIGN CHOICE, notes/assumptions/5.md). -/
structure RunParams where
  /-- `LMAX`: the greatest image length in Words that the core accepts (decision D5). -/
  lmax : Nat := 32768
  /-- `STACK_MAX`: the greatest number of stack entries, `none` for unbounded (decision D6). -/
  stackMax : Option Nat := none
  /-- `INPUT`, as far as it is known (decisions D8, D16). -/
  input : List Byte := []
  /-- Whether `INPUT` ends after those bytes. -/
  inputEnd : InputEnd := .ended
  deriving DecidableEq, Repr

end Sys2Proof
end

