-- ==== Sys2Proof/Syntax.lean ====
section
/-! DEFINITION. The 22 instructions (spec/30_encoding.md R46, R51) and their operands (R47). One constructor for each
row of the opcode table; nothing here says what an instruction does. -/

namespace Sys2Proof

/-- A token of an operand shape (R44): `R`, a destination register, or `V`, a literal or a register's content. -/
inductive Token where
  | R
  | V
  deriving DecidableEq, Repr

/-- The class of an operand Word (R47): a literal, a register reference, or any other Word, which is invalid.
Classification looks at the Word alone, so any class can stand in any token; WellFormed and the resolver say which
class a token accepts. -/
inductive Operand where
  /-- A Word 0..32767. -/
  | lit (v : Val)
  /-- A Word 32768..32775, a reference to register 0..7. -/
  | reg (i : RegIdx)
  /-- A Word 32776..65535. -/
  | invalid (w : Word)
  deriving DecidableEq, Repr

/-- An instruction with its operands `a`, `b`, `c` in encoding order (R8, R51). -/
inductive Instr where
  /-- Opcode 0, shape N. -/
  | halt
  /-- Opcode 1, shape R,V. -/
  | set (a b : Operand)
  /-- Opcode 2, shape V. -/
  | push (a : Operand)
  /-- Opcode 3, shape R. -/
  | pop (a : Operand)
  /-- Opcode 4, shape R,V,V. -/
  | eq (a b c : Operand)
  /-- Opcode 5, shape R,V,V. -/
  | gt (a b c : Operand)
  /-- Opcode 6, shape V. -/
  | jmp (a : Operand)
  /-- Opcode 7, shape V,V. -/
  | jnz (a b : Operand)
  /-- Opcode 8, shape V,V. -/
  | jez (a b : Operand)
  /-- Opcode 9, shape R,V,V. -/
  | add (a b c : Operand)
  /-- Opcode 10, shape R,V,V. -/
  | mult (a b c : Operand)
  /-- Opcode 11, shape R,V,V. -/
  | mod (a b c : Operand)
  /-- Opcode 12, shape R,V,V. -/
  | and (a b c : Operand)
  /-- Opcode 13, shape R,V,V. -/
  | or (a b c : Operand)
  /-- Opcode 14, shape R,V. -/
  | not (a b : Operand)
  /-- Opcode 15, shape R,V. -/
  | rmem (a b : Operand)
  /-- Opcode 16, shape V,V. -/
  | wmem (a b : Operand)
  /-- Opcode 17, shape V. -/
  | call (a : Operand)
  /-- Opcode 18, shape N. -/
  | ret
  /-- Opcode 19, shape V. -/
  | out (a : Operand)
  /-- Opcode 20, shape R; the table's `in`, a word Lean keeps for itself. -/
  | inp (a : Operand)
  /-- Opcode 21, shape N. -/
  | noop
  deriving DecidableEq, Repr

end Sys2Proof
end

