-- ==== Sys2Proof/WellFormed.lean ====
section
/-! DEFINITION. Which operand a token accepts (spec/30_encoding.md R48, R49) and when an instruction is well formed:
each of its tokens has an operand of a class it accepts. An instruction that is not well formed still has an encoding
and still runs: it raises InvalidOperand (R99). -/

namespace Sys2Proof

/-- The classes a token accepts: an `R` token a register reference only, a `V` token a literal or a register
reference (R48, R49). -/
def Token.accepts : Token → Operand → Bool
  | .R, .reg _ => true
  | .R, .lit _ => false
  | .R, .invalid _ => false
  | .V, .lit _ => true
  | .V, .reg _ => true
  | .V, .invalid _ => false

/-- Every operand is of a class its token accepts (shapes of R46). -/
def Instr.wf : Instr → Bool
  | .halt => true
  | .set a b => Token.R.accepts a && Token.V.accepts b
  | .push a => Token.V.accepts a
  | .pop a => Token.R.accepts a
  | .eq a b c => Token.R.accepts a && Token.V.accepts b && Token.V.accepts c
  | .gt a b c => Token.R.accepts a && Token.V.accepts b && Token.V.accepts c
  | .jmp a => Token.V.accepts a
  | .jnz a b => Token.V.accepts a && Token.V.accepts b
  | .jez a b => Token.V.accepts a && Token.V.accepts b
  | .add a b c => Token.R.accepts a && Token.V.accepts b && Token.V.accepts c
  | .mult a b c => Token.R.accepts a && Token.V.accepts b && Token.V.accepts c
  | .mod a b c => Token.R.accepts a && Token.V.accepts b && Token.V.accepts c
  | .and a b c => Token.R.accepts a && Token.V.accepts b && Token.V.accepts c
  | .or a b c => Token.R.accepts a && Token.V.accepts b && Token.V.accepts c
  | .not a b => Token.R.accepts a && Token.V.accepts b
  | .rmem a b => Token.R.accepts a && Token.V.accepts b
  | .wmem a b => Token.V.accepts a && Token.V.accepts b
  | .call a => Token.V.accepts a
  | .ret => true
  | .out a => Token.V.accepts a
  | .inp a => Token.R.accepts a
  | .noop => true

end Sys2Proof
end

