-- ==== Sys2Proof/Decode.lean ====
section
/-! DEFINITION. From Words to instructions and back (spec/30_encoding.md). The decoder is total on any list of Words and
rejects by name; the encoder is written from the same table (R46, R51). -/

namespace Sys2Proof

/-! ### Operand Words (R47, R50) -/

/-- The class of an operand Word, by unsigned range checks (R47). -/
def Operand.ofWord (w : Word) : Operand :=
  if w.toNat ≤ Config.valMax then .lit (BitVec.ofNat 15 w.toNat)
  else if w.toNat ≤ Config.regTop then .reg (Fin.ofNat 8 (w.toNat - Config.regBase))
  else .invalid w

/-- The operand Word of an operand (R47). -/
def Operand.toWord : Operand → Word
  | .lit v => wordOfVal v
  | .reg i => BitVec.ofNat 16 (Config.regBase + i.val)
  | .invalid w => w

/-! ### Decoding -/

/-- Why a list of Words gives no instruction. -/
inductive DecodeReject where
  /-- The Words end before the instruction does. -/
  | truncated
  /-- The first Word is 22..65535 (R45). -/
  | unknownOpcode (w : Word)
  /-- The Words end before the instruction does, and one of the operand Words that are there is not accepted by its
  token: `w` is the first such. It is met before the missing Word (spec/60_exceptions.md R106, decision D10). -/
  | invalidOperand (w : Word)
  deriving DecidableEq, Repr

/-- The rejection of an instruction whose Words `ws` are fewer than its tokens `ts`. -/
def rejectShort : List Token → List Word → DecodeReject
  | t :: ts, w :: ws => if t.accepts (.ofWord w) then rejectShort ts ws else .invalidOperand w
  | _, _ => .truncated

/-- Format `V` (R46). -/
def takeV (mk : Operand → Instr) : List Word → Except DecodeReject (Instr × List Word)
  | a :: rest => .ok (mk (.ofWord a), rest)
  | ws => .error (rejectShort [.V] ws)

/-- Format `R` (R46). -/
def takeR (mk : Operand → Instr) : List Word → Except DecodeReject (Instr × List Word)
  | a :: rest => .ok (mk (.ofWord a), rest)
  | ws => .error (rejectShort [.R] ws)

/-- Format `RV` (R46). -/
def takeRV (mk : Operand → Operand → Instr) : List Word → Except DecodeReject (Instr × List Word)
  | a :: b :: rest => .ok (mk (.ofWord a) (.ofWord b), rest)
  | ws => .error (rejectShort [.R, .V] ws)

/-- Format `VV` (R46). -/
def takeVV (mk : Operand → Operand → Instr) : List Word → Except DecodeReject (Instr × List Word)
  | a :: b :: rest => .ok (mk (.ofWord a) (.ofWord b), rest)
  | ws => .error (rejectShort [.V, .V] ws)

/-- Format `RVV` (R46). -/
def takeRVV (mk : Operand → Operand → Operand → Instr) : List Word → Except DecodeReject (Instr × List Word)
  | a :: b :: c :: rest => .ok (mk (.ofWord a) (.ofWord b) (.ofWord c), rest)
  | ws => .error (rejectShort [.R, .V, .V] ws)

/-- The instruction at the head of a list of Words, and the Words after it. The opcode Word is compared whole (R45);
the shape follows from it alone (R46, R53). An instruction all of whose Words are there is decoded whatever the classes
of its operands: an operand its token does not accept makes the instruction itself raise InvalidOperand when it resolves
it (R48, R49). DEDUCED, safe: notes/assumptions/8.md. -/
def decode : List Word → Except DecodeReject (Instr × List Word)
  | [] => .error .truncated
  | op :: ws =>
    match op.toNat with
    | 0 => .ok (.halt, ws)
    | 1 => takeRV .set ws
    | 2 => takeV .push ws
    | 3 => takeR .pop ws
    | 4 => takeRVV .eq ws
    | 5 => takeRVV .gt ws
    | 6 => takeV .jmp ws
    | 7 => takeVV .jnz ws
    | 8 => takeVV .jez ws
    | 9 => takeRVV .add ws
    | 10 => takeRVV .mult ws
    | 11 => takeRVV .mod ws
    | 12 => takeRVV .and ws
    | 13 => takeRVV .or ws
    | 14 => takeRV .not ws
    | 15 => takeRV .rmem ws
    | 16 => takeVV .wmem ws
    | 17 => takeV .call ws
    | 18 => .ok (.ret, ws)
    | 19 => takeV .out ws
    | 20 => takeR .inp ws
    | 21 => .ok (.noop, ws)
    | _ => .error (.unknownOpcode op)

/-! ### Encoding -/

/-- The opcode of an instruction (R51). -/
def Instr.opcode : Instr → Nat
  | .halt => 0
  | .set _ _ => 1
  | .push _ => 2
  | .pop _ => 3
  | .eq _ _ _ => 4
  | .gt _ _ _ => 5
  | .jmp _ => 6
  | .jnz _ _ => 7
  | .jez _ _ => 8
  | .add _ _ _ => 9
  | .mult _ _ _ => 10
  | .mod _ _ _ => 11
  | .and _ _ _ => 12
  | .or _ _ _ => 13
  | .not _ _ => 14
  | .rmem _ _ => 15
  | .wmem _ _ => 16
  | .call _ => 17
  | .ret => 18
  | .out _ => 19
  | .inp _ => 20
  | .noop => 21

/-- The operands of an instruction in encoding order (R44). -/
def Instr.operands : Instr → List Operand
  | .halt => []
  | .set a b => [a, b]
  | .push a => [a]
  | .pop a => [a]
  | .eq a b c => [a, b, c]
  | .gt a b c => [a, b, c]
  | .jmp a => [a]
  | .jnz a b => [a, b]
  | .jez a b => [a, b]
  | .add a b c => [a, b, c]
  | .mult a b c => [a, b, c]
  | .mod a b c => [a, b, c]
  | .and a b c => [a, b, c]
  | .or a b c => [a, b, c]
  | .not a b => [a, b]
  | .rmem a b => [a, b]
  | .wmem a b => [a, b]
  | .call a => [a]
  | .ret => []
  | .out a => [a]
  | .inp a => [a]
  | .noop => []

/-- The opcode Word of an instruction. -/
def Instr.opcodeWord (i : Instr) : Word := BitVec.ofNat 16 i.opcode

/-- The length of an instruction in Words: the opcode Word and one Word for each token (R44). -/
def Instr.length (i : Instr) : Nat := i.operands.length + 1

/-- The Words of an instruction: the opcode Word, then the operand Words in order (R44). -/
def encode (i : Instr) : List Word := i.opcodeWord :: i.operands.map Operand.toWord

/-! ### The bytes of the image (spec/20_memory.md R28) -/

/-- A Word from its two bytes in file order: the low-order byte comes first (R28). -/
def wordOfBytes (lo hi : Byte) : Word := BitVec.ofNat 16 (lo.toNat + 256 * hi.toNat)

/-- A byte buffer as consecutive little-endian Words; `none` if its length is odd (R28). -/
def wordsOfBytes : List Byte → Option (List Word)
  | [] => some []
  | [_] => none
  | lo :: hi :: rest => (wordsOfBytes rest).map (wordOfBytes lo hi :: ·)

/-! ### The opcode table's numbering of an instruction's bits -/

/-- The four Words, the longest instruction's, of an instruction whose low `nbits` bits are those of `w` and whose
higher bits are 0, bit 0 being the least significant bit of the first Word and a later Word's bits counting on. -/
def tableWords (nbits w : Nat) : List Word :=
  let v := w % 2 ^ nbits
  [BitVec.ofNat 16 v, BitVec.ofNat 16 (v / 65536), BitVec.ofNat 16 (v / 4294967296), BitVec.ofNat 16 (v / 281474976710656)]

/-- The instruction the decoder reads from an instruction whose bits are numbered as the opcode table numbers them. -/
def decodeTableWord (nbits w : Nat) : Option Instr :=
  match decode (tableWords nbits w) with
  | .ok (i, _) => some i
  | .error _ => none

end Sys2Proof
end

