-- ==== Sys2Proof/Machine/State.lean ====
section
/-! DEFINITION. The state of the machine (spec/10_state.md), as plain data: what R10 lists, the two environment streams
of R20 and the one run parameter a step reads. Also the ways a step can end without a next state. -/

namespace Sys2Proof.Machine

/-- The kinds of fault (spec/60_exceptions.md R96). A fault is no stop of this model: the faulting step answers a next
state whose run state is Faulted. -/
inductive FaultKind where
  /-- The image has an odd number of bytes; raised by the load (R97). -/
  | malformedProgram
  /-- An address at or above `L` is fetched, read or written (R98). -/
  | memoryFault
  /-- An operand Word its token does not accept (R99). -/
  | invalidOperand
  /-- `pop` or `ret` with an empty stack (R100). -/
  | stackUnderflow
  /-- `mod` with a zero divisor (R101). -/
  | divideByZero
  /-- An opcode Word 22..65535 (R102). -/
  | unknownOpcode
  /-- `in` when the input has ended (R103). -/
  | inputExhausted
  /-- A value above 32767 would be written to a register or pushed (R14, R104). -/
  | nonCanonicalValue
  deriving DecidableEq, Repr

/-- The fault record `(kind, pc0, opcode, info)` (R19). -/
structure FaultRecord where
  kind : FaultKind
  /-- The address of the faulting instruction's opcode Word; none for a fault of the load (R28). -/
  pc0 : Option Nat
  /-- The opcode Word, if it was fetched. -/
  opcode : Option Word
  /-- The offending value, for the kinds that have one. -/
  info : Option Nat
  deriving DecidableEq, Repr

/-- The Run State (R18). Halted and Faulted are terminal. -/
inductive RunState where
  | running
  | halted
  | faulted (r : FaultRecord)
  deriving DecidableEq, Repr

/-- Program Memory (R17, spec/20_memory.md R27): `size` is `L`, and the cells `0 .. size - 1` exist. `cells` lists the
(address, Word) pairs of the cells that do not hold 0. The list is in Words, not bytes, because the spec's memory has no
bytes (R27, R32). DESIGN CHOICE, safe: notes/assumptions/2.md. -/
structure Memory where
  size : Nat
  cells : List (Nat × Word)
  deriving DecidableEq, Repr

/-- What a cell that is not listed holds. -/
abbrev Memory.unlisted : Word := 0

/-- Addresses strictly rising, each at least `low` and below `size`, and no entry equal to what an unlisted cell
holds. -/
def cellsCanonical (size : Nat) : Nat → List (Nat × Word) → Bool
  | _, [] => true
  | low, (a, w) :: rest => low ≤ a && a < size && w != Memory.unlisted && cellsCanonical size (a + 1) rest

/-- The canonical form of memory: equal memories are equal data. -/
def Memory.wf (m : Memory) : Bool := cellsCanonical m.size 0 m.cells

/-- The complete state (R10, R20). -/
structure State where
  /-- The Register Bank `x[0..7]` (R12). -/
  regs : Vector Val 8
  /-- The Instruction Pointer, a Word address; a natural number, as R5 allows (R15; notes/assumptions/9.md). -/
  ip : Nat
  /-- The Stack, its top first; separate storage (R16). -/
  stack : List Val
  /-- Program Memory (R17). -/
  mem : Memory
  /-- The Run State (R18). -/
  run : RunState
  /-- The output stream, oldest first (R20, R93). -/
  output : List Val
  /-- The unread input that is there, oldest first (R20, R94). -/
  input : List Byte
  /-- What follows that input: its end, or more to come (R94). -/
  inputEnd : InputEnd
  /-- `STACK_MAX`, a parameter of the run that no step changes (R16, R26; notes/assumptions/6.md). -/
  stackMax : Option Nat
  deriving DecidableEq, Repr

/-- The state right after reset (R25): registers 0, `ip` 0, stack and output empty, Running. It is the state for the
parameters' defaults and the empty image, so memory has no cells; `boot` gives it for any image (R117;
notes/assumptions/5.md). -/
def State.reset : State where
  regs := Vector.replicate 8 0
  ip := Config.ipReset
  stack := []
  mem := { size := 0, cells := [] }
  run := .running
  output := []
  input := []
  inputEnd := .ended
  stackMax := none

/-- Why there is no step: the spec gives the state none. -/
inductive Fault where
  /-- The run state is Halted: "no instruction executes, no state changes" (R18, R57). Raised by `step` alone. Safe: it
  gives no next state. -/
  | runHalted
  /-- The run state is Faulted with this record (R18, R57). Raised by `step` alone. Safe: it gives no next state. -/
  | runFaulted (r : FaultRecord)
  /-- An `in` whose source has no byte ready and has not ended: "an `in` step that is not enabled" (spec/48_io.md R94).
  Raised by `in`. A stuck state; safe: it gives no next state. -/
  | awaitingInput
  deriving DecidableEq, Repr

/-- What the model gives no meaning to. -/
inductive Refusal where
  /-- The instruction of this mnemonic has no meaning yet. Raised by `exec`; no arm raises it now. Safe. -/
  | notModelled (mnemonic : String)
  /-- A push that would make the depth exceed a finite `STACK_MAX`: "outside the spec and a model refuses it" (R16,
  decision D6). Raised by `push` and `call`. Safe. -/
  | stackFull
  /-- An image longer than `LMAX` Words, which the spec refuses (spec/20_memory.md R28, decision D5). Raised by `boot`.
  Safe. -/
  | imageTooLong
  deriving DecidableEq, Repr

/-- What can cut an instruction short inside the execution of its own rule: a fault to be taken, a state with no step,
or a refusal. -/
inductive Stop where
  /-- `raise kind(info)` (spec/60_exceptions.md R95). -/
  | raise (kind : FaultKind) (info : Option Nat)
  /-- The step is not enabled. -/
  | stuck (f : Fault)
  /-- Outside the spec. -/
  | refuse (r : Refusal)
  deriving DecidableEq, Repr

end Sys2Proof.Machine
end

