-- ==== Sys2Proof/Machine/Ops.lean ====
section
/-! DEFINITION. The named operations over registers, stack, memory and streams (the primitives of spec/00_scope.md R7),
and taking a fault (spec/60_exceptions.md R95). There is no return from a fault to stand beside it: "There is no
return-from-trap instruction and no way to resume" (R108). -/

namespace Sys2Proof.Machine

/-! ### Updates of one part of the state -/

def State.setReg (s : State) (i : RegIdx) (v : Val) : State := { s with regs := s.regs.set i v }
def State.setIp (s : State) (a : Nat) : State := { s with ip := a }
def State.setStack (s : State) (st : List Val) : State := { s with stack := st }
def State.setMem (s : State) (m : Memory) : State := { s with mem := m }
def State.setRun (s : State) (r : RunState) : State := { s with run := r }
def State.setOutput (s : State) (o : List Val) : State := { s with output := o }
def State.setInput (s : State) (l : List Byte) : State := { s with input := l }

/-- The instruction pointer after the fetch of `n` Words (spec/40_dispatch.md R58, R62). -/
def State.advance (s : State) (n : Nat) : State := s.setIp (s.ip + n)

/-! ### Registers (spec/10_state.md R12, R14) -/

/-- `x[i]`. No register is hardwired (R12). -/
def State.reg (s : State) (i : RegIdx) : Val := s.regs.get i

/-- `x[i] <- v`, with the write guard (R14). -/
def writeReg (i : RegIdx) (v : Nat) (s : State) : Except Stop State :=
  if v ≤ Config.valMax then .ok (s.setReg i (BitVec.ofNat 15 v)) else .error (.raise .nonCanonicalValue (some v))

/-! ### Stack (R16) -/

/-- A push keeps the depth within `STACK_MAX` (decision D6). -/
def State.hasRoom (s : State) : Bool :=
  match s.stackMax with
  | none => true
  | some n => s.stack.length < n

/-- `Push(v)`, with the write guard (R14) before the bound of the stack (R16). -/
def pushVal (v : Nat) (s : State) : Except Stop State :=
  if v ≤ Config.valMax then
    if s.hasRoom then .ok (s.setStack (BitVec.ofNat 15 v :: s.stack)) else .error (.refuse .stackFull)
  else .error (.raise .nonCanonicalValue (some v))

/-- `Pop()`: the top entry and the state without it. -/
def popVal (s : State) : Except Stop (Val × State) :=
  match s.stack with
  | [] => .error (.raise .stackUnderflow none)
  | v :: rest => .ok (v, s.setStack rest)

/-! ### Program memory (spec/20_memory.md R29, R30) -/

/-- The Word of a cell, listed or not. -/
def cellWord : List (Nat × Word) → Nat → Word
  | [], _ => Memory.unlisted
  | (k, w) :: rest, a => if k = a then w else cellWord rest a

/-- The list without the cell `a`. -/
def eraseCell : List (Nat × Word) → Nat → List (Nat × Word)
  | [], _ => []
  | (k, w) :: rest, a => if k = a then eraseCell rest a else (k, w) :: eraseCell rest a

/-- The list with the cell `a`, which it does not have, put before the first greater address. -/
def insertCell : List (Nat × Word) → Nat → Word → List (Nat × Word)
  | [], a, v => [(a, v)]
  | (k, w) :: rest, a, v => if a < k then (a, v) :: (k, w) :: rest else (k, w) :: insertCell rest a v

/-- Store a Word in a cell and keep the canonical form. -/
def storeCell (cells : List (Nat × Word)) (a : Nat) (v : Word) : List (Nat × Word) :=
  if v = Memory.unlisted then eraseCell cells a else insertCell (eraseCell cells a) a v

/-- `M[a]`, if the cell exists (R35). -/
def Memory.read (m : Memory) (a : Nat) : Option Word := if a < m.size then some (cellWord m.cells a) else none

/-- `M[a] <- v` for a cell that exists. -/
def Memory.write (m : Memory) (a : Nat) (v : Word) : Memory := { m with cells := storeCell m.cells a v }

/-- `MemRead(addr, 1)` (R29). -/
def memRead (a : Nat) (s : State) : Except Stop Word :=
  match s.mem.read a with
  | some w => .ok w
  | none => .error (.raise .memoryFault (some a))

/-- `MemWrite(addr, 1, v)` (R30): the size never changes. -/
def memWrite (a : Nat) (v : Word) (s : State) : Except Stop State :=
  if a < s.mem.size then .ok (s.setMem (s.mem.write a v)) else .error (.raise .memoryFault (some a))

/-! ### Streams (spec/48_io.md R91, R94) -/

/-- `Emit(v)`. -/
def emit (v : Val) (s : State) : State := s.setOutput (s.output ++ [v])

/-- `NextInput()`, with the fault at the end of the stream (R92); with no byte there and no end, the step is not
enabled (R94, decision D16; notes/assumptions/4.md). -/
def nextInput (s : State) : Except Stop (Byte × State) :=
  match s.input with
  | c :: rest => .ok (c, s.setInput rest)
  | [] =>
    match s.inputEnd with
    | .ended => .error (.raise .inputExhausted none)
    | .pending => .error (.stuck .awaitingInput)

/-! ### Taking a fault -/

/-- Take a fault: the run state becomes Faulted with the record, `ip <- pc0`, and nothing else changes (R95,
spec/40_dispatch.md R63). This is a next state. DESIGN CHOICE, safe: notes/assumptions/3.md. -/
def takeFault (r : FaultRecord) (s : State) : State := (s.setRun (.faulted r)).setIp (r.pc0.getD s.ip)

/-- How an instruction that started in `s`, where `ip` is `pc0`, ends: in the state its body gives, or, if the body
raises a fault, in `s` itself with that fault taken, whatever the body had done until then (R63). -/
def finish (i : Instr) (s : State) (body : Except Stop State) : Host.Outcome State Fault Refusal :=
  match body with
  | .ok t => .next t
  | .error (.raise kind info) =>
    .next (takeFault { kind := kind, pc0 := some s.ip, opcode := some i.opcodeWord, info := info } s)
  | .error (.stuck f) => .fault f
  | .error (.refuse r) => .refused r

/-- The numeric code of a fault kind, for an implementation that reports a number (R96, decision D11). -/
def FaultKind.code : FaultKind → Nat
  | .malformedProgram => 1
  | .memoryFault => 2
  | .invalidOperand => 3
  | .stackUnderflow => 4
  | .divideByZero => 5
  | .unknownOpcode => 6
  | .inputExhausted => 7
  | .nonCanonicalValue => 8

end Sys2Proof.Machine
end

