-- ==== Sys2Proof/Machine/Operands.lean ====
section
/-! DEFINITION. The Operand Resolver (spec/30_encoding.md R48, R49): every operand form there is. -/

namespace Sys2Proof.Machine

/-- `ValOf(w)`: a literal is the value, a register reference gives the register's content, and any other Word raises
InvalidOperand (R48). -/
def valOf (s : State) : Operand → Except Stop Val
  | .lit v => .ok v
  | .reg i => .ok (s.reg i)
  | .invalid w => .error (.raise .invalidOperand (some w.toNat))

/-- `RegOf(w)`: the index of a register reference; a literal or an invalid Word raises InvalidOperand (R49, decision
D2). The register is not read. -/
def regOf : Operand → Except Stop RegIdx
  | .reg i => .ok i
  | .lit v => .error (.raise .invalidOperand (some v.toNat))
  | .invalid w => .error (.raise .invalidOperand (some w.toNat))

end Sys2Proof.Machine
end

