-- ==== Sys2Proof/Machine/Flags.lean ====
section
/-! DEFINITION. The machine has no flags, condition codes or predicate registers (spec/10_state.md R21). Where another
machine sets a flag, this one writes the number 1 or 0 to a general register (spec/43_compare.md R71, R72); that number
is all this file holds. -/

namespace Sys2Proof.Machine

/-- The outcome of a comparison as a number: 1 if it holds, else 0. -/
def truthValue (holds : Bool) : Nat := if holds then 1 else 0

end Sys2Proof.Machine
end

