-- ==== Sys2Proof/Machine/Arith.lean ====
section
/-! DEFINITION. The modular ALU, `add`, `mult` and `mod` (spec/45_arith.md): exact arithmetic on naturals, then the
remainder modulo 32768 (R80). -/

namespace Sys2Proof.Machine

/-- `add` (R81). -/
def execAdd (a b c : Operand) (s : State) : Host.Outcome State Fault Refusal :=
  finish (.add a b c) s do
    let ra ← regOf a
    let vb ← valOf s b
    let vc ← valOf s c
    writeReg ra ((vb.toNat + vc.toNat) % Config.modulus) (s.advance 4)

/-- `mult` (R82). -/
def execMult (a b c : Operand) (s : State) : Host.Outcome State Fault Refusal :=
  finish (.mult a b c) s do
    let ra ← regOf a
    let vb ← valOf s b
    let vc ← valOf s c
    writeReg ra ((vb.toNat * vc.toNat) % Config.modulus) (s.advance 4)

/-- The remainder of a division, which a zero divisor faults (R83). -/
def remainder (n d : Nat) : Except Stop Nat := if d = 0 then .error (.raise .divideByZero none) else .ok (n % d)

/-- `mod` (R83). -/
def execMod (a b c : Operand) (s : State) : Host.Outcome State Fault Refusal :=
  finish (.mod a b c) s do
    let ra ← regOf a
    let vb ← valOf s b
    let vc ← valOf s c
    let r ← remainder vb.toNat vc.toNat
    writeReg ra r (s.advance 4)

end Sys2Proof.Machine
end

