-- ==== Sys2Proof/Machine/CharIO.lean ====
section
/-! DEFINITION. `out` and `in` (spec/48_io.md), and what the environment can do to the input stream of a running core
(spec/00_scope.md R9). -/

namespace Sys2Proof.Machine

/-- `out` (R91): every code is passed through as the number itself (R93, decision D7). -/
def execOut (a : Operand) (s : State) : Host.Outcome State Fault Refusal :=
  finish (.out a) s do
    let va ← valOf s a
    pure (emit va (s.advance 2))

/-- `in` (R92): the operand is resolved before any input is requested. -/
def execInp (a : Operand) (s : State) : Host.Outcome State Fault Refusal :=
  finish (.inp a) s do
    let ra ← regOf a
    let (c, t) ← nextInput (s.advance 2)
    writeReg ra c.toNat t

/-- The environment delivers further bytes of an input that has not ended (R94; notes/assumptions/4.md). -/
def State.deliver (s : State) (bytes : List Byte) : State :=
  match s.inputEnd with
  | .pending => s.setInput (s.input ++ bytes)
  | .ended => s

/-- The environment ends the input (R92, R94). -/
def State.endInput (s : State) : State := { s with inputEnd := .ended }

end Sys2Proof.Machine
end

