-- ==== Sys2Proof/Machine/Compare.lean ====
section
/-! DEFINITION. The comparison unit, `eq` and `gt` (spec/43_compare.md). -/

namespace Sys2Proof.Machine

/-- `eq` (R71): 1 when the values are equal, else 0. -/
def execEq (a b c : Operand) (s : State) : Host.Outcome State Fault Refusal :=
  finish (.eq a b c) s do
    let ra ← regOf a
    let vb ← valOf s b
    let vc ← valOf s c
    writeReg ra (truthValue (vb.toNat == vc.toNat)) (s.advance 4)

/-- `gt` (R72): 1 when the first value is greater, as unsigned numbers, else 0. -/
def execGt (a b c : Operand) (s : State) : Host.Outcome State Fault Refusal :=
  finish (.gt a b c) s do
    let ra ← regOf a
    let vb ← valOf s b
    let vc ← valOf s c
    writeReg ra (truthValue (vc.toNat < vb.toNat)) (s.advance 4)

end Sys2Proof.Machine
end

