-- ==== Sys2Proof/Machine/ControlTransfer.lean ====
section
/-! DEFINITION. `jmp`, `jnz`, `jez`, `call` and `ret` (spec/44_control_transfer.md). Targets are absolute Word addresses
and are not checked; a target at or above `L` faults at the next fetch (R73). -/

namespace Sys2Proof.Machine

/-- `jmp` (R74): `ip <- va`. -/
def execJmp (a : Operand) (s : State) : Host.Outcome State Fault Refusal :=
  finish (.jmp a) s do
    let va ← valOf s a
    pure (s.setIp va.toNat)

/-- `jnz` (R75): `if va != 0 then ip <- vb`; both operands are resolved either way (R60). -/
def execJnz (a b : Operand) (s : State) : Host.Outcome State Fault Refusal :=
  finish (.jnz a b) s do
    let va ← valOf s a
    let vb ← valOf s b
    pure (if va.toNat ≠ 0 then s.setIp vb.toNat else s.advance 3)

/-- `jez` (R76): `if va = 0 then ip <- vb`; both operands are resolved either way (R60). -/
def execJez (a b : Operand) (s : State) : Host.Outcome State Fault Refusal :=
  finish (.jez a b) s do
    let va ← valOf s a
    let vb ← valOf s b
    pure (if va.toNat = 0 then s.setIp vb.toNat else s.advance 3)

/-- `call` (R77): push the address of the Word after the operand, then `ip <- va`. -/
def execCall (a : Operand) (s : State) : Host.Outcome State Fault Refusal :=
  finish (.call a) s do
    let va ← valOf s a
    let t ← pushVal (s.advance 2).ip (s.advance 2)
    pure (t.setIp va.toNat)

/-- `ret` (R78): `ip <- Pop()`. -/
def execRet (s : State) : Host.Outcome State Fault Refusal :=
  finish .ret s do
    let (v, t) ← popVal (s.advance 1)
    pure (t.setIp v.toNat)

end Sys2Proof.Machine
end

