-- ==== Sys2Proof/Machine/Logic.lean ====
section
/-! DEFINITION. The logic unit, `and`, `or` and `not`, on 15-bit patterns (spec/46_logic.md R84). -/

namespace Sys2Proof.Machine

/-- `and` (R85). -/
def execAnd (a b c : Operand) (s : State) : Host.Outcome State Fault Refusal :=
  finish (.and a b c) s do
    let ra ← regOf a
    let vb ← valOf s b
    let vc ← valOf s c
    writeReg ra (vb &&& vc).toNat (s.advance 4)

/-- `or` (R86). -/
def execOr (a b c : Operand) (s : State) : Host.Outcome State Fault Refusal :=
  finish (.or a b c) s do
    let ra ← regOf a
    let vb ← valOf s b
    let vc ← valOf s c
    writeReg ra (vb ||| vc).toNat (s.advance 4)

/-- `not` (R87): `32767 - vb`. -/
def execNot (a b : Operand) (s : State) : Host.Outcome State Fault Refusal :=
  finish (.not a b) s do
    let ra ← regOf a
    let vb ← valOf s b
    writeReg ra (Config.valMax - vb.toNat) (s.advance 3)

end Sys2Proof.Machine
end

