-- ==== Sys2Proof/Machine/MemAccess.lean ====
section
/-! DEFINITION. `rmem` and `wmem` (spec/47_mem_access.md). The effective address is the resolved value, unchanged
(R88). -/

namespace Sys2Proof.Machine

/-- `rmem` (R89): the bound is checked before the Word is examined. -/
def execRmem (a b : Operand) (s : State) : Host.Outcome State Fault Refusal :=
  finish (.rmem a b) s do
    let ra ← regOf a
    let vb ← valOf s b
    let w ← memRead vb.toNat s
    writeReg ra w.toNat (s.advance 3)

/-- `wmem` (R90): address first, datum second. -/
def execWmem (a b : Operand) (s : State) : Host.Outcome State Fault Refusal :=
  finish (.wmem a b) s do
    let va ← valOf s a
    let vb ← valOf s b
    memWrite va.toNat (wordOfVal vb) (s.advance 3)

end Sys2Proof.Machine
end

