-- ==== Sys2Proof/Machine/MoveStack.lean ====
section
/-! DEFINITION. `set`, `push` and `pop` (spec/42_move_stack.md). -/

namespace Sys2Proof.Machine

/-- `set` (R68): `x[ra] <- vb`. -/
def execSet (a b : Operand) (s : State) : Host.Outcome State Fault Refusal :=
  finish (.set a b) s do
    let ra ← regOf a
    let vb ← valOf s b
    writeReg ra vb.toNat (s.advance 3)

/-- `push` (R69): `Push(va)`. -/
def execPush (a : Operand) (s : State) : Host.Outcome State Fault Refusal :=
  finish (.push a) s do
    let va ← valOf s a
    pushVal va.toNat (s.advance 2)

/-- `pop` (R70): `v <- Pop()`, then `x[ra] <- v`. -/
def execPop (a : Operand) (s : State) : Host.Outcome State Fault Refusal :=
  finish (.pop a) s do
    let ra ← regOf a
    let (v, t) ← popVal (s.advance 2)
    writeReg ra v.toNat t

end Sys2Proof.Machine
end

