-- ==== Sys2Proof/Machine/RunControl.lean ====
section
/-! DEFINITION. `halt` and `noop` (spec/41_run_control.md). Every meaning in this and the other family files is entered
with `ip` at the instruction's opcode Word, resolves its operands in order, and then has its effect on the state whose
`ip` stands after the instruction (spec/40_dispatch.md R58, R60 to R62). -/

namespace Sys2Proof.Machine

/-- `halt` (R66): `run <- Halted`; `ip` is left after it. -/
def execHalt (s : State) : Host.Outcome State Fault Refusal :=
  finish .halt s (.ok ((s.advance 1).setRun .halted))

/-- `noop` (R67). -/
def execNoop (s : State) : Host.Outcome State Fault Refusal :=
  finish .noop s (.ok (s.advance 1))

end Sys2Proof.Machine
end

