-- ==== Sys2Proof/Machine/Fetch.lean ====
section
/-! DEFINITION. Fetching and decoding the instruction at `ip` (spec/40_dispatch.md R58 to R60, spec/20_memory.md R31),
and placing Words where the next fetch reads them. -/

namespace Sys2Proof.Machine

/-- The Words at the `n` addresses from `a` on, as far as they exist. -/
def Memory.window (m : Memory) : Nat → Nat → List Word
  | _, 0 => []
  | a, n + 1 =>
    match m.read a with
    | some w => w :: m.window (a + 1) n
    | none => []

/-- The fault of a step whose fetch or decode fails: `ws` are the Words there were from `ip` on. The missing Word of a
truncated instruction is the one after them, and the opcode is recorded if it was fetched (R59, R60, spec/10_state.md
R19). -/
def rejectFault (r : DecodeReject) (ws : List Word) (s : State) : State :=
  match r with
  | .truncated =>
    takeFault { kind := .memoryFault, pc0 := some s.ip, opcode := ws.head?, info := some (s.ip + ws.length) } s
  | .unknownOpcode w =>
    takeFault { kind := .unknownOpcode, pc0 := some s.ip, opcode := ws.head?, info := some w.toNat } s
  | .invalidOperand w =>
    takeFault { kind := .invalidOperand, pc0 := some s.ip, opcode := ws.head?, info := some w.toNat } s

/-- The instruction the next step runs, fetched from current memory (R26, R42), or how the step ends without one: an
ended run has no step (R57), and a fetch or decode that fails takes its fault (R106). No instruction is longer than 4
Words (R44). -/
def fetchInstr (s : State) : Except (Host.Outcome State Fault Refusal) Instr :=
  match s.run with
  | .halted => .error (.fault .runHalted)
  | .faulted r => .error (.fault (.runFaulted r))
  | .running =>
    match decode (s.mem.window s.ip 4) with
    | .ok (i, _) => .ok i
    | .error r => .error (.next (rejectFault r (s.mem.window s.ip 4) s))

/-- The cells with Words stored from `a` on. -/
def storeWords (cells : List (Nat × Word)) : Nat → List Word → List (Nat × Word)
  | _, [] => cells
  | a, w :: ws => storeWords (storeCell cells a w) (a + 1) ws

/-- A running machine with `ws` stored at `ip`, memory made long enough to hold them. This is no act of the machine,
whose memory never grows (R37): it stands for a load from outside (notes/assumptions/5.md). -/
def placeWords (s : State) (ws : List Word) : State :=
  { s with run := .running,
           mem := { size := max s.mem.size (s.ip + ws.length), cells := storeWords s.mem.cells s.ip ws } }

end Sys2Proof.Machine
end

