-- ==== Sys2Proof/Machine/Load.lean ====
section
/-! DEFINITION. Loading the image and reset (spec/20_memory.md R28, spec/70_reset_and_hazards.md R117): how a program
comes to run. -/

namespace Sys2Proof.Machine

/-- The listed cells of Words that stand from address `a` on. -/
def cellsOfWords : Nat → List Word → List (Nat × Word)
  | _, [] => []
  | a, w :: ws => if w = Memory.unlisted then cellsOfWords (a + 1) ws else (a, w) :: cellsOfWords (a + 1) ws

/-- The memory that holds exactly these Words from address 0 on (R28). -/
def memoryOfWords (ws : List Word) : Memory := { size := ws.length, cells := cellsOfWords 0 ws }

/-- The reset state of a run with these parameters, before an image is loaded (spec/10_state.md R25). -/
def resetWith (p : RunParams) : State :=
  { State.reset with input := p.input, inputEnd := p.inputEnd, stackMax := p.stackMax }

/-- Load an image and reset (R117). An odd length ends the run at once in Faulted(MalformedProgram), with no position,
opcode or info and with no memory loaded (R28, R97, decision D14); an even one longer than `LMAX` Words is refused
(decision D5; notes/assumptions/7.md). -/
def boot (p : RunParams) (image : List Byte) : Host.Outcome State Fault Refusal :=
  match wordsOfBytes image with
  | none => .next (takeFault { kind := .malformedProgram, pc0 := none, opcode := none, info := none } (resetWith p))
  | some ws => if ws.length ≤ p.lmax then .next ((resetWith p).setMem (memoryOfWords ws)) else .refused .imageTooLong

end Sys2Proof.Machine
end

