-- ==== Sys2Proof/Machine/Step.lean ====
section
/-! DEFINITION. One step of the dispatcher (spec/40_dispatch.md R58). -/

namespace Sys2Proof.Machine

/-- One step: fetch and decode at `ip`, then execute. -/
def step (s : State) : Host.Outcome State Fault Refusal :=
  match fetchInstr s with
  | .ok i => exec i s
  | .error o => o

/-- The state with the instruction whose low `nbits` bits are those of `w`, as the opcode table numbers them, stored
where the next step fetches. -/
def State.withFetchWord (s : State) (nbits w : Nat) : State := placeWords s (tableWords nbits w)

end Sys2Proof.Machine
end

