-- ==== Sys2Proof/Safety.lean ====
section
/-! DEFINITION. The terms claims are stated in: how a run ends, the invariant, what a step leaves unchanged, and the
spec's own account of operand Words, shapes and the fetch loop, written from the rules and not from the decoder. -/

namespace Sys2Proof.Machine

/-! ### The end of a run (spec/70_reset_and_hazards.md R119) -/

/-- The one successful end. -/
def State.succeeded (s : State) : Prop := s.run = .halted

/-- A run has ended when it is Halted or Faulted. -/
def State.ended (s : State) : Prop := s.run ≠ .running

/-! ### The invariant -/

/-- The stack holds no more than `STACK_MAX` entries (spec/10_state.md R16). -/
def State.depthOk (s : State) : Bool :=
  match s.stackMax with
  | none => true
  | some n => s.stack.length ≤ n

/-- A recorded fault is that of the instruction `ip` points at, or one of the load (R19, spec/40_dispatch.md R63). -/
def State.recordOk (s : State) : Bool :=
  match s.run with
  | .running => true
  | .halted => true
  | .faulted r => r.pc0 == some s.ip || (r.pc0 == none && r.kind == .malformedProgram)

/-- What holds of every state of a run: memory in its canonical form, `ip` within 0..max(`L`, 32767) (R15), the stack
within its bound, and a fault record that fits. -/
abbrev Inv (s : State) : Prop :=
  s.mem.wf = true ∧ s.ip ≤ max s.mem.size 32767 ∧ s.depthOk = true ∧ s.recordOk = true

/-! ### Operand Words and shapes by number (spec/30_encoding.md R46 to R49) -/

/-- `ValOf(w)` as R48 writes it; `none` where it raises InvalidOperand. -/
def valueOfWord (s : State) (w : Word) : Option Nat :=
  if w.toNat ≤ 32767 then some w.toNat
  else if h : w.toNat ≤ 32775 then some (s.reg ⟨w.toNat - 32768, by omega⟩).toNat
  else none

/-- `RegOf(w)` as R49 writes it; `none` where it raises InvalidOperand. -/
def registerOfWord (w : Word) : Option RegIdx :=
  if h : 32768 ≤ w.toNat ∧ w.toNat ≤ 32775 then some ⟨w.toNat - 32768, by omega⟩ else none

/-- The Words a token takes (R48, R49). -/
def tokenTakes : Token → Word → Bool
  | .R, w => 32768 ≤ w.toNat && w.toNat ≤ 32775
  | .V, w => w.toNat ≤ 32775

/-- The first Word of an instruction's operands that its token does not take. -/
def firstRefused : List (Token × Word) → Option Word
  | [] => none
  | (t, w) :: rest => if tokenTakes t w then firstRefused rest else some w

/-- The shape of each opcode (the format table of R46); `none` for a Word that is no opcode. -/
def shapeOf : Nat → Option (List Token)
  | 0 | 18 | 21 => some []
  | 2 | 6 | 17 | 19 => some [.V]
  | 3 | 20 => some [.R]
  | 1 | 14 | 15 => some [.R, .V]
  | 7 | 8 | 16 => some [.V, .V]
  | 4 | 5 | 9 | 10 | 11 | 12 | 13 => some [.R, .V, .V]
  | _ => none

/-! ### The fetch and decode phases, word by word (spec/40_dispatch.md R58) -/

/-- `FetchNext()` at the cursor `ip`: the Word and the advanced cursor (spec/20_memory.md R31). -/
def fetchNext (s : State) (ip : Nat) : Except Stop (Word × Nat) :=
  match s.mem.read ip with
  | some w => .ok (w, ip + 1)
  | none => .error (.raise .memoryFault (some ip))

/-- The loop over the tokens: each Word is fetched and then classified before the next is fetched (R60). -/
def fetchTokens (s : State) : List Token → Nat → Except Stop (List Word)
  | [], _ => .ok []
  | t :: ts, ip => do
    let (w, next) ← fetchNext s ip
    if tokenTakes t w then
      let ws ← fetchTokens s ts next
      pure (w :: ws)
    else .error (.raise .invalidOperand (some w.toNat))

/-- The Words of the instruction at `ip`, or the first fault met on the way (R58, R59). -/
def fetchLoop (s : State) : Except Stop (List Word) := do
  let (op, next) ← fetchNext s s.ip
  match shapeOf op.toNat with
  | none => .error (.raise .unknownOpcode (some op.toNat))
  | some ts =>
    let ws ← fetchTokens s ts next
    pure (op :: ws)

/-! ### What an instruction leaves, changes and raises -/

def SameRegs (s t : State) : Prop := ∀ j, t.reg j = s.reg j

/-- Every cell reads as before, and the same cells exist. -/
def SameMemory (s t : State) : Prop := t.mem.size = s.mem.size ∧ ∀ a, t.mem.read a = s.mem.read a

def SameStreams (s t : State) : Prop := t.output = s.output ∧ t.input = s.input ∧ t.inputEnd = s.inputEnd

/-- Register `r` holds the number `v`, and every other register is as before. -/
def RegBecomes (s t : State) (r : RegIdx) (v : Nat) : Prop :=
  (t.reg r).toNat = v ∧ ∀ j, j ≠ r → t.reg j = s.reg j

/-- Register `r` becomes `v` and `ip` becomes `a`; nothing else changes. -/
def OnlyReg (s t : State) (r : RegIdx) (v a : Nat) : Prop :=
  RegBecomes s t r v ∧ t.ip = a ∧ t.stack = s.stack ∧ SameMemory s t ∧ t.run = s.run ∧ SameStreams s t ∧
    t.stackMax = s.stackMax

/-- `ip` becomes `a`; nothing else changes. -/
def OnlyIp (s t : State) (a : Nat) : Prop :=
  SameRegs s t ∧ t.ip = a ∧ t.stack = s.stack ∧ SameMemory s t ∧ t.run = s.run ∧ SameStreams s t ∧
    t.stackMax = s.stackMax

/-- The stack becomes `st`, top first, and `ip` becomes `a`; nothing else changes. -/
def OnlyStack (s t : State) (st : List Val) (a : Nat) : Prop :=
  SameRegs s t ∧ t.ip = a ∧ t.stack = st ∧ SameMemory s t ∧ t.run = s.run ∧ SameStreams s t ∧
    t.stackMax = s.stackMax

/-- The stack can take one more entry. -/
def StackHasRoom (s : State) : Prop := ∀ n, s.stackMax = some n → s.stack.length < n

/-- `s` with a fault of the instruction at `ip` recorded, and nothing else changed: `ip` is `pc0` (R63). -/
def faultedBy (s : State) (kind : FaultKind) (opcode : Option Word) (info : Option Nat) : State :=
  { s with run := .faulted { kind := kind, pc0 := some s.ip, opcode := opcode, info := info } }

/-- The same for an instruction whose opcode was fetched. -/
def faultedAt (s : State) (kind : FaultKind) (op : Nat) (info : Option Nat) : State :=
  faultedBy s kind (some (BitVec.ofNat 16 op)) info

/-- The instruction of opcode `op` raises InvalidOperand for the first operand Word its token does not take (R99). -/
def RaisesInvalidOperand (i : Instr) (op : Nat) (operands : List (Token × Word)) (s : State) : Prop :=
  ∀ w, firstRefused operands = some w → exec i s = .next (faultedAt s .invalidOperand op (some w.toNat))

/-- The RVV instruction `mk` of opcode `op` writes `f` of its two values to its register and changes nothing else, and
raises InvalidOperand for an operand Word its token does not take. -/
def ComputesRVV (op : Nat) (mk : Operand → Operand → Operand → Instr) (f : Nat → Nat → Nat) : Prop :=
  ∀ (s : State) (a b c : Word),
    decode [BitVec.ofNat 16 op, a, b, c] = .ok (mk (.ofWord a) (.ofWord b) (.ofWord c), []) ∧
    (∀ ra vb vc, registerOfWord a = some ra → valueOfWord s b = some vb → valueOfWord s c = some vc →
      ∃ t, exec (mk (.ofWord a) (.ofWord b) (.ofWord c)) s = .next t ∧ OnlyReg s t ra (f vb vc) (s.ip + 4)) ∧
    RaisesInvalidOperand (mk (.ofWord a) (.ofWord b) (.ofWord c)) op [(.R, a), (.V, b), (.V, c)] s

/-- The RV instruction `mk` of opcode `op` writes `f` of its value to its register and changes nothing else, and raises
InvalidOperand for an operand Word its token does not take. -/
def ComputesRV (op : Nat) (mk : Operand → Operand → Instr) (f : Nat → Nat) : Prop :=
  ∀ (s : State) (a b : Word),
    decode [BitVec.ofNat 16 op, a, b] = .ok (mk (.ofWord a) (.ofWord b), []) ∧
    (∀ ra vb, registerOfWord a = some ra → valueOfWord s b = some vb →
      ∃ t, exec (mk (.ofWord a) (.ofWord b)) s = .next t ∧ OnlyReg s t ra (f vb) (s.ip + 3)) ∧
    RaisesInvalidOperand (mk (.ofWord a) (.ofWord b)) op [(.R, a), (.V, b)] s

/-- The VV instruction `mk` of opcode `op` sets `ip` to its second value when `taken` holds of its first, moves to the
next instruction when not, and changes nothing else; both operands are resolved either way. -/
def Branches (op : Nat) (mk : Operand → Operand → Instr) (taken : Nat → Bool) : Prop :=
  ∀ (s : State) (a b : Word),
    decode [BitVec.ofNat 16 op, a, b] = .ok (mk (.ofWord a) (.ofWord b), []) ∧
    (∀ va vb, valueOfWord s a = some va → valueOfWord s b = some vb →
      ∃ t, exec (mk (.ofWord a) (.ofWord b)) s = .next t ∧ OnlyIp s t (if taken va then vb else s.ip + 3)) ∧
    RaisesInvalidOperand (mk (.ofWord a) (.ofWord b)) op [(.V, a), (.V, b)] s

end Sys2Proof.Machine
end

