-- ==== Sys2Proof/Certificates/Slice0/Obligations.lean ====
section
/-! DEFINITION. The statements for the provers. Each docstring names the rule it formalises. Operands are given as raw
Words `a`, `b`, `c`, so that a statement covers every form there is. -/

open Sys2Proof Sys2Proof.Machine

/-! ### Encoding -/

/-- R44, R46, R51: no bit of an encoding is dropped; every well-formed instruction is read back from its Words. -/
def Obligations.DecodeOfEncodeIsTheInstruction : Prop :=
  ∀ (i : Instr) (rest : List Word), i.wf = true → decode (encode i ++ rest) = .ok (i, rest)

/-- R44, R45, R47: a decoded instruction, well formed or not, encodes to exactly the Words it was read from. -/
def Obligations.EncodeOfDecodeIsTheWords : Prop :=
  ∀ (ws rest : List Word) (i : Instr), decode ws = .ok (i, rest) → ws = encode i ++ rest

/-- R45: the whole opcode Word is compared. -/
def Obligations.OpcodeWordIsComparedWhole : Prop :=
  (∀ (op : Word) (ws rest : List Word) (i : Instr), decode (op :: ws) = .ok (i, rest) →
    op.toNat = i.opcode ∧ op.toNat ≤ 21) ∧
  (∀ (op : Word) (ws : List Word), op.toNat ≤ 21 → 3 ≤ ws.length → ∃ i rest, decode (op :: ws) = .ok (i, rest)) ∧
  (∀ (op : Word) (ws : List Word), 22 ≤ op.toNat → decode (op :: ws) = .error (.unknownOpcode op)) ∧
  (∀ (s : State) (op : Word), s.run = .running → s.mem.read s.ip = some op → 22 ≤ op.toNat →
    step s = .next (faultedAt s .unknownOpcode op.toNat (some op.toNat)))

/-- R47: the three classes of operand Words. -/
def Obligations.OperandWordsFallInThreeClasses : Prop :=
  ∀ w : Word,
    (w.toNat ≤ 32767 → ∃ v : Val, Operand.ofWord w = .lit v ∧ v.toNat = w.toNat) ∧
    (32768 ≤ w.toNat → w.toNat ≤ 32775 → ∃ i : RegIdx, Operand.ofWord w = .reg i ∧ i.val = w.toNat - 32768) ∧
    (32776 ≤ w.toNat → Operand.ofWord w = .invalid w)

/-- R48, R49: `ValOf` and `RegOf` on every Word. -/
def Obligations.ResolverGivesValueOrRegister : Prop :=
  ∀ (s : State) (w : Word),
    (∀ v, valueOfWord s w = some v → ∃ u : Val, valOf s (.ofWord w) = .ok u ∧ u.toNat = v) ∧
    (valueOfWord s w = none → valOf s (.ofWord w) = .error (.raise .invalidOperand (some w.toNat))) ∧
    (∀ i, registerOfWord w = some i → regOf (.ofWord w) = .ok i) ∧
    (registerOfWord w = none → regOf (.ofWord w) = .error (.raise .invalidOperand (some w.toNat)))

/-- R53: the length follows from the opcode Word alone. -/
def Obligations.LengthFollowsFromTheOpcode : Prop :=
  ∀ (op : Word) (ws rest : List Word) (i : Instr), decode (op :: ws) = .ok (i, rest) →
    ∃ sh, shapeOf op.toNat = some sh ∧ i.length = 1 + sh.length ∧ ws.length = sh.length + rest.length

/-- Words written out from R46, R47 and R51. -/
def Obligations.SampleWordsDecode : Prop :=
  decode [0] = .ok (.halt, []) ∧
  decode [1, 32768, 5] = .ok (.set (.reg 0) (.lit 5), []) ∧
  decode [2, 32775] = .ok (.push (.reg 7), []) ∧
  decode [20, 32769] = .ok (.inp (.reg 1), []) ∧
  decode [8, 32770, 30] = .ok (.jez (.reg 2) (.lit 30), []) ∧
  decode [9, 32768, 32768, 48] = .ok (.add (.reg 0) (.reg 0) (.lit 48), []) ∧
  decode [14, 32773, 32772] = .ok (.not (.reg 5) (.reg 4), []) ∧
  decode [16, 5, 32768] = .ok (.wmem (.lit 5) (.reg 0), []) ∧
  decode [256, 0, 0, 0] = .error (.unknownOpcode 256)

/-! ### The step -/

/-- R58: a step runs the instruction whose Words stand at `ip`; it adds nothing around `exec`, whose meanings move `ip`
themselves. -/
def Obligations.StepRunsTheDecodedInstruction : Prop :=
  ∀ (s : State) (i : Instr), s.run = .running → i.wf = true →
    (∀ k, k < (encode i).length → s.mem.read (s.ip + k) = (encode i)[k]?) → step s = exec i s

/-- R58, R59, R60, R106: the step agrees with the loop that fetches and classifies Word by Word. -/
def Obligations.StepAgreesWithTheFetchLoop : Prop :=
  ∀ s : State, s.run = .running →
    (∀ ws, fetchLoop s = .ok ws → ∃ i, i.wf = true ∧ encode i = ws ∧ step s = exec i s) ∧
    (∀ e, fetchLoop s = .error e → ∃ kind info, e = .raise kind info ∧
      step s = .next (faultedBy s kind (s.mem.read s.ip) info))

/-- R59, R98: the opcode fetch past the end of memory. -/
def Obligations.OpcodeFetchPastTheEndFaults : Prop :=
  ∀ s : State, s.run = .running → s.mem.size ≤ s.ip →
    step s = .next (faultedBy s .memoryFault none (some s.ip))

/-- R57: a step is taken only while Running. -/
def Obligations.StepsAreTakenOnlyWhileRunning : Prop :=
  ∀ s t : State, step s = .next t → s.run = .running

/-- R18, R66: Halted is reached only by executing opcode 0. -/
def Obligations.HaltedIsReachedOnlyByOpcodeZero : Prop :=
  ∀ s t : State, step s = .next t →
    (t.run = .halted ↔ s.mem.read s.ip = some 0)

/-- R63, R95: a faulting instruction changes nothing but the run state. -/
def Obligations.FaultsArePrecise : Prop :=
  ∀ (s t : State) (r : FaultRecord), step s = .next t → t.run = .faulted r →
    t = { s with run := .faulted r } ∧ r.pc0 = some s.ip ∧ r.opcode = s.mem.read s.ip

/-- R96: which opcodes can raise which kind. -/
def Obligations.FaultKindsByOpcode : Prop :=
  ∀ (s t : State) (r : FaultRecord), step s = .next t → t.run = .faulted r →
    (r.kind = .memoryFault ∧ r.opcode = none) ∨
    ∃ op : Word, r.opcode = some op ∧
      match r.kind with
      | .malformedProgram => False
      | .memoryFault => op.toNat ≤ 21 ∧ op.toNat ∉ [0, 18, 21]
      | .invalidOperand => op.toNat ≤ 21 ∧ op.toNat ∉ [0, 18, 21]
      | .stackUnderflow => op.toNat ∈ [3, 18]
      | .divideByZero => op.toNat = 11
      | .unknownOpcode => 22 ≤ op.toNat
      | .inputExhausted => op.toNat = 20
      | .nonCanonicalValue => op.toNat ∈ [15, 17]

/-- The invariant (R13 to R16, R19, and the model's canonical memory, log 2) is kept by every step. -/
def Obligations.EveryStepKeepsTheStateLegal : Prop :=
  ∀ s t : State, Inv s → step s = .next t → Inv t

/-- The invariant holds right after reset. -/
def Obligations.ResetStateIsLegal : Prop := Inv State.reset

/-- The invariant holds after the load of any image. -/
def Obligations.BootedStateIsLegal : Prop :=
  ∀ (p : RunParams) (image : List Byte) (s : State), boot p image = .next s → Inv s

/-! ### What only some instructions change -/

/-- R17, R27: memory is mutated only by `wmem`. -/
def Obligations.MemoryChangesOnlyByWmem : Prop :=
  ∀ (s t : State) (a : Nat), step s = .next t → t.mem.read a ≠ s.mem.read a → s.mem.read s.ip = some 16

/-- R37, R26: the memory's size and the run's parameters never change. -/
def Obligations.MemorySizeNeverChanges : Prop :=
  ∀ s t : State, step s = .next t →
    t.mem.size = s.mem.size ∧ t.stackMax = s.stackMax ∧ t.inputEnd = s.inputEnd

/-- R30: a cell that holds 32768 or more has held it since the image. -/
def Obligations.HighCellsComeOnlyFromTheImage : Prop :=
  ∀ (s t : State) (a : Nat) (w : Word), step s = .next t → t.mem.read a = some w → 32768 ≤ w.toNat →
    s.mem.read a = some w

/-- R12: a register is written only as the `R` token of one of twelve instructions. -/
def Obligations.RegistersChangeOnlyByTheTwelve : Prop :=
  ∀ (s t : State) (j : RegIdx), step s = .next t → t.reg j ≠ s.reg j →
    ∃ op a : Word, s.mem.read s.ip = some op ∧ s.mem.read (s.ip + 1) = some a ∧
      op.toNat ∈ [1, 3, 4, 5, 9, 10, 11, 12, 13, 14, 15, 20] ∧ a.toNat = 32768 + j.val

/-- R16: the stack is mutated only by `push`, `pop`, `call` and `ret`, one entry at a time and at its top. -/
def Obligations.StackChangesOnlyByTheFour : Prop :=
  ∀ s t : State, step s = .next t →
    t.stack = s.stack ∨
    ∃ op : Word, s.mem.read s.ip = some op ∧
      ((op.toNat ∈ [2, 17] ∧ ∃ v, t.stack = v :: s.stack) ∨ (op.toNat ∈ [3, 18] ∧ ∃ v, s.stack = v :: t.stack))

/-- R20: the output grows only by `out`, and input is taken only by `in`, one byte from the front. -/
def Obligations.StreamsMoveOnlyByOutAndIn : Prop :=
  ∀ s t : State, step s = .next t →
    (t.output = s.output ∨ (s.mem.read s.ip = some 19 ∧ ∃ v, t.output = s.output ++ [v])) ∧
    (t.input = s.input ∨ (s.mem.read s.ip = some 20 ∧ ∃ c, s.input = c :: t.input))

/-- R20: no step reads what was output. -/
def Obligations.OutputIsNeverRead : Prop :=
  ∀ (s t : State) (o : List Val), step s = .next t →
    step { s with output := o ++ s.output } = .next { t with output := o ++ t.output }

/-- R20: nothing but `in` reads the input stream. -/
def Obligations.InputIsReadOnlyByIn : Prop :=
  ∀ (s t : State) (l : List Byte) (e : InputEnd), step s = .next t → s.mem.read s.ip ≠ some 20 →
    step { s with input := l, inputEnd := e } = .next { t with input := l, inputEnd := e }

/-- R62: an instruction that does not write `ip` leaves it at the address of the next instruction. -/
def Obligations.SequentialSuccessor : Prop :=
  ∀ (s t : State) (op : Word) (sh : List Token), step s = .next t → s.mem.read s.ip = some op →
    shapeOf op.toNat = some sh → op.toNat ∉ [6, 7, 8, 17, 18] → (∀ r, t.run ≠ .faulted r) →
    t.ip = s.ip + 1 + sh.length

/-- R42: the instruction after a `wmem` is decoded from the modified memory. -/
def Obligations.StoreIsSeenByTheNextFetch : Prop :=
  ∀ (s t : State) (a b : Word) (va vb : Nat), step s = .next t → t.run = .running →
    s.mem.read s.ip = some 16 → s.mem.read (s.ip + 1) = some a → s.mem.read (s.ip + 2) = some b →
    valueOfWord s a = some va → valueOfWord s b = some vb → va = t.ip →
    (vb = 21 → ∃ u, step t = .next u ∧ OnlyIp t u (t.ip + 1)) ∧
    (22 ≤ vb → step t = .next (faultedAt t .unknownOpcode vb (some vb)))

/-! ### Run control -/

/-- R66: the run ends, and no further instruction executes. -/
def Obligations.HaltEndsTheRun : Prop :=
  ∀ s : State, decode [0] = .ok (.halt, []) ∧
    ∃ t, exec .halt s = .next t ∧ t.run = .halted ∧ t.ip = s.ip + 1 ∧ SameRegs s t ∧ t.stack = s.stack ∧
      SameMemory s t ∧ SameStreams s t ∧ t.stackMax = s.stackMax ∧ ∀ u, step t ≠ .next u

/-- R67. -/
def Obligations.NoopOnlyAdvances : Prop :=
  ∀ s : State, decode [21] = .ok (.noop, []) ∧ ∃ t, exec .noop s = .next t ∧ OnlyIp s t (s.ip + 1)

/-! ### Register move and stack -/

/-- R68. -/
def Obligations.SetCopiesTheValue : Prop := ComputesRV 1 .set (fun v => v)

/-- R69. The refusal beyond `STACK_MAX` is that of R16 and decision D6, under the model's name for it (log 6). -/
def Obligations.PushAddsTheValueOnTop : Prop :=
  ∀ (s : State) (a : Word),
    decode [2, a] = .ok (.push (.ofWord a), []) ∧
    (∀ va, valueOfWord s a = some va → StackHasRoom s →
      ∃ t, exec (.push (.ofWord a)) s = .next t ∧ OnlyStack s t (BitVec.ofNat 15 va :: s.stack) (s.ip + 2) ∧
        va ≤ 32767) ∧
    (∀ va, valueOfWord s a = some va → ¬ StackHasRoom s → exec (.push (.ofWord a)) s = .refused .stackFull) ∧
    RaisesInvalidOperand (.push (.ofWord a)) 2 [(.V, a)] s

/-- R70. -/
def Obligations.PopTakesTheTop : Prop :=
  ∀ (s : State) (a : Word),
    decode [3, a] = .ok (.pop (.ofWord a), []) ∧
    (∀ ra v rest, registerOfWord a = some ra → s.stack = v :: rest →
      ∃ t, exec (.pop (.ofWord a)) s = .next t ∧ RegBecomes s t ra v.toNat ∧ t.stack = rest ∧ t.ip = s.ip + 2 ∧
        SameMemory s t ∧ t.run = s.run ∧ SameStreams s t ∧ t.stackMax = s.stackMax) ∧
    (∀ ra, registerOfWord a = some ra → s.stack = [] →
      exec (.pop (.ofWord a)) s = .next (faultedAt s .stackUnderflow 3 none)) ∧
    RaisesInvalidOperand (.pop (.ofWord a)) 3 [(.R, a)] s

/-- The source's property of R70: a push followed by a pop gives the value back and leaves the stack as it was. -/
def Obligations.PopAfterPushGivesTheValue : Prop :=
  ∀ (s : State) (a b : Word) (va : Nat) (rb : RegIdx), valueOfWord s a = some va → registerOfWord b = some rb →
    StackHasRoom s →
    ∃ t u, exec (.push (.ofWord a)) s = .next t ∧ exec (.pop (.ofWord b)) t = .next u ∧
      OnlyReg s u rb va (s.ip + 4)

/-! ### Comparison -/

/-- R71. -/
def Obligations.EqWritesOneWhenEqual : Prop := ComputesRVV 4 .eq (fun x y => if x = y then 1 else 0)

/-- R72. -/
def Obligations.GtWritesOneWhenGreater : Prop := ComputesRVV 5 .gt (fun x y => if x > y then 1 else 0)

/-! ### Control transfer -/

/-- R74. -/
def Obligations.JmpGoesToTheValue : Prop :=
  ∀ (s : State) (a : Word),
    decode [6, a] = .ok (.jmp (.ofWord a), []) ∧
    (∀ va, valueOfWord s a = some va → ∃ t, exec (.jmp (.ofWord a)) s = .next t ∧ OnlyIp s t va) ∧
    RaisesInvalidOperand (.jmp (.ofWord a)) 6 [(.V, a)] s

/-- R75. -/
def Obligations.JnzGoesWhenNotZero : Prop := Branches 7 .jnz (fun v => v != 0)

/-- R76. -/
def Obligations.JezGoesWhenZero : Prop := Branches 8 .jez (fun v => v == 0)

/-- R77, with the write guard of R14 and the bound of R16 and decision D6. Two things are the model's choice (log 6): the
name of the refusal, and that the guard comes before the bound, so that a return address above 32767 faults on a full stack
too. -/
def Obligations.CallPushesTheReturnAddress : Prop :=
  ∀ (s : State) (a : Word),
    decode [17, a] = .ok (.call (.ofWord a), []) ∧
    (∀ va, valueOfWord s a = some va → s.ip + 2 ≤ 32767 → StackHasRoom s →
      ∃ t, exec (.call (.ofWord a)) s = .next t ∧ OnlyStack s t (BitVec.ofNat 15 (s.ip + 2) :: s.stack) va) ∧
    (∀ va, valueOfWord s a = some va → s.ip + 2 ≤ 32767 → ¬ StackHasRoom s →
      exec (.call (.ofWord a)) s = .refused .stackFull) ∧
    (∀ va, valueOfWord s a = some va → 32767 < s.ip + 2 →
      exec (.call (.ofWord a)) s = .next (faultedAt s .nonCanonicalValue 17 (some (s.ip + 2)))) ∧
    RaisesInvalidOperand (.call (.ofWord a)) 17 [(.V, a)] s

/-- R78. -/
def Obligations.RetGoesToTheTop : Prop :=
  ∀ s : State, decode [18] = .ok (.ret, []) ∧
    (∀ v rest, s.stack = v :: rest → ∃ t, exec .ret s = .next t ∧ OnlyStack s t rest v.toNat) ∧
    (s.stack = [] → exec .ret s = .next (faultedAt s .stackUnderflow 18 none))

/-- R79: "call(target) then ret() resumes execution exactly at the instruction following the call's operand." -/
def Obligations.RetAfterCallResumes : Prop :=
  ∀ (s : State) (a : Word) (va : Nat), valueOfWord s a = some va → s.ip + 2 ≤ 32767 → StackHasRoom s →
    ∃ t u, exec (.call (.ofWord a)) s = .next t ∧ t.ip = va ∧ exec .ret t = .next u ∧ OnlyIp s u (s.ip + 2)

/-! ### Arithmetic -/

/-- R81. -/
def Obligations.AddWritesTheSumModulo32768 : Prop := ComputesRVV 9 .add (fun x y => (x + y) % 32768)

/-- R82. -/
def Obligations.MultWritesTheProductModulo32768 : Prop := ComputesRVV 10 .mult (fun x y => (x * y) % 32768)

/-- R83. -/
def Obligations.ModWritesTheRemainder : Prop :=
  ∀ (s : State) (a b c : Word),
    decode [11, a, b, c] = .ok (.mod (.ofWord a) (.ofWord b) (.ofWord c), []) ∧
    (∀ ra vb vc, registerOfWord a = some ra → valueOfWord s b = some vb → valueOfWord s c = some vc → vc ≠ 0 →
      ∃ t r q, exec (.mod (.ofWord a) (.ofWord b) (.ofWord c)) s = .next t ∧ OnlyReg s t ra r (s.ip + 4) ∧
        r < vc ∧ vb = q * vc + r) ∧
    (∀ ra vb, registerOfWord a = some ra → valueOfWord s b = some vb → valueOfWord s c = some 0 →
      exec (.mod (.ofWord a) (.ofWord b) (.ofWord c)) s = .next (faultedAt s .divideByZero 11 none)) ∧
    RaisesInvalidOperand (.mod (.ofWord a) (.ofWord b) (.ofWord c)) 11 [(.R, a), (.V, b), (.V, c)] s

/-! ### Logic -/

/-- R85. -/
def Obligations.AndWritesTheBitwiseAnd : Prop := ComputesRVV 12 .and (fun x y => x &&& y)

/-- R86. -/
def Obligations.OrWritesTheBitwiseOr : Prop := ComputesRVV 13 .or (fun x y => x ||| y)

/-- R87. -/
def Obligations.NotWritesTheComplement : Prop := ComputesRV 14 .not (fun v => 32767 - v)

/-- R84: the three results bit by bit, over the 15 bits of a Val. -/
def Obligations.LogicWorksBitByBit : Prop :=
  ∀ (s : State) (a b c : Word) (ra : RegIdx) (vb vc : Nat), registerOfWord a = some ra →
    valueOfWord s b = some vb → valueOfWord s c = some vc →
    ∃ t u n, exec (.and (.ofWord a) (.ofWord b) (.ofWord c)) s = .next t ∧
      exec (.or (.ofWord a) (.ofWord b) (.ofWord c)) s = .next u ∧
      exec (.not (.ofWord a) (.ofWord b)) s = .next n ∧
      ∀ i, i < 15 →
        (t.reg ra).toNat.testBit i = (vb.testBit i && vc.testBit i) ∧
        (u.reg ra).toNat.testBit i = (vb.testBit i || vc.testBit i) ∧
        (n.reg ra).toNat.testBit i = !vb.testBit i

/-! ### Program memory access -/

/-- R89. -/
def Obligations.RmemLoadsTheCell : Prop :=
  ∀ (s : State) (a b : Word),
    decode [15, a, b] = .ok (.rmem (.ofWord a) (.ofWord b), []) ∧
    (∀ ra vb w, registerOfWord a = some ra → valueOfWord s b = some vb → s.mem.read vb = some w → w.toNat ≤ 32767 →
      ∃ t, exec (.rmem (.ofWord a) (.ofWord b)) s = .next t ∧ OnlyReg s t ra w.toNat (s.ip + 3)) ∧
    (∀ ra vb w, registerOfWord a = some ra → valueOfWord s b = some vb → s.mem.read vb = some w → 32767 < w.toNat →
      exec (.rmem (.ofWord a) (.ofWord b)) s = .next (faultedAt s .nonCanonicalValue 15 (some w.toNat))) ∧
    (∀ ra vb, registerOfWord a = some ra → valueOfWord s b = some vb → s.mem.size ≤ vb →
      exec (.rmem (.ofWord a) (.ofWord b)) s = .next (faultedAt s .memoryFault 15 (some vb))) ∧
    RaisesInvalidOperand (.rmem (.ofWord a) (.ofWord b)) 15 [(.R, a), (.V, b)] s

/-- R90: the cell at the first value holds the second; every other cell is as before. -/
def Obligations.WmemStoresTheValue : Prop :=
  ∀ (s : State) (a b : Word),
    decode [16, a, b] = .ok (.wmem (.ofWord a) (.ofWord b), []) ∧
    (∀ va vb, valueOfWord s a = some va → valueOfWord s b = some vb → va < s.mem.size →
      ∃ t, exec (.wmem (.ofWord a) (.ofWord b)) s = .next t ∧ t.mem.read va = some (BitVec.ofNat 16 vb) ∧
        (∀ x, x ≠ va → t.mem.read x = s.mem.read x) ∧ t.mem.size = s.mem.size ∧ t.ip = s.ip + 3 ∧ SameRegs s t ∧
        t.stack = s.stack ∧ t.run = s.run ∧ SameStreams s t ∧ t.stackMax = s.stackMax) ∧
    (∀ va vb, valueOfWord s a = some va → valueOfWord s b = some vb → s.mem.size ≤ va →
      exec (.wmem (.ofWord a) (.ofWord b)) s = .next (faultedAt s .memoryFault 16 (some va))) ∧
    RaisesInvalidOperand (.wmem (.ofWord a) (.ofWord b)) 16 [(.V, a), (.V, b)] s

/-- The model's canonical form (log 2): memories of one size that read the same are the same data. -/
def Obligations.MemoriesThatReadAlikeAreEqual : Prop :=
  ∀ m m' : Memory, m.wf = true → m'.wf = true → m.size = m'.size → (∀ a, m.read a = m'.read a) → m = m'

/-! ### Character input and output -/

/-- R91. -/
def Obligations.OutAppendsTheCode : Prop :=
  ∀ (s : State) (a : Word),
    decode [19, a] = .ok (.out (.ofWord a), []) ∧
    (∀ va, valueOfWord s a = some va →
      ∃ t, exec (.out (.ofWord a)) s = .next t ∧ t.output.map BitVec.toNat = s.output.map BitVec.toNat ++ [va] ∧
        t.input = s.input ∧ t.inputEnd = s.inputEnd ∧ t.ip = s.ip + 2 ∧ SameRegs s t ∧ t.stack = s.stack ∧
        SameMemory s t ∧ t.run = s.run ∧ t.stackMax = s.stackMax) ∧
    RaisesInvalidOperand (.out (.ofWord a)) 19 [(.V, a)] s

/-- R92, R103: one byte is taken; without one, and before the end of the input, there is no next state; at its end the
instruction faults. -/
def Obligations.InTakesOneByte : Prop :=
  ∀ (s : State) (a : Word),
    decode [20, a] = .ok (.inp (.ofWord a), []) ∧
    (∀ ra c rest, registerOfWord a = some ra → s.input = c :: rest →
      ∃ t, exec (.inp (.ofWord a)) s = .next t ∧ RegBecomes s t ra c.toNat ∧ t.input = rest ∧
        t.inputEnd = s.inputEnd ∧ t.output = s.output ∧ t.ip = s.ip + 2 ∧ t.stack = s.stack ∧ SameMemory s t ∧
        t.run = s.run ∧ t.stackMax = s.stackMax) ∧
    (∀ ra, registerOfWord a = some ra → s.input = [] → s.inputEnd = .pending →
      ∀ t, exec (.inp (.ofWord a)) s ≠ .next t) ∧
    (∀ ra, registerOfWord a = some ra → s.input = [] → s.inputEnd = .ended →
      exec (.inp (.ofWord a)) s = .next (faultedAt s .inputExhausted 20 none)) ∧
    RaisesInvalidOperand (.inp (.ofWord a)) 20 [(.R, a)] s

/-- R94, decision D16: an `in` step that is not enabled. That it stops under this name, and goes on after the delivery
of a byte, is how the model shows the wait (log 4). -/
def Obligations.InWaitsForTheEnvironment : Prop :=
  ∀ (s : State) (a : Word) (ra : RegIdx) (c : Byte), registerOfWord a = some ra → s.input = [] → s.inputEnd = .pending →
    exec (.inp (.ofWord a)) s = .fault .awaitingInput ∧
    (∃ t, exec (.inp (.ofWord a)) (s.deliver [c]) = .next t ∧ RegBecomes s t ra c.toNat ∧ t.ip = s.ip + 2) ∧
    exec (.inp (.ofWord a)) s.endInput = .next (faultedAt s.endInput .inputExhausted 20 none)

/-! ### Load and reset -/

/-- R28: an even image loads as little-endian Words, low byte first, from address 0. -/
def Obligations.LoadIsLittleEndian : Prop :=
  ∀ (p : RunParams) (image : List Byte), image.length % 2 = 0 → image.length / 2 ≤ p.lmax →
    ∃ s, boot p image = .next s ∧ s.mem.size = image.length / 2 ∧
      ∀ k, k < image.length / 2 → ∃ (lo hi : Byte) (w : Word), image[2 * k]? = some lo ∧
        image[2 * k + 1]? = some hi ∧ s.mem.read k = some w ∧ w.toNat = lo.toNat + 256 * hi.toNat

/-- R97: an image of odd length. -/
def Obligations.OddImageIsMalformed : Prop :=
  ∀ (p : RunParams) (image : List Byte), image.length % 2 = 1 → image.length / 2 < p.lmax →
    ∃ s, boot p image = .next s ∧
      s.run = .faulted { kind := .malformedProgram, pc0 := none, opcode := none, info := none } ∧
      ∀ t, step s ≠ .next t

/-- Decision D5: an image longer than `LMAX` Words is refused. That one of odd length is malformed whatever its length is
the model's choice (log 7). -/
def Obligations.LongImageIsRefused : Prop :=
  ∀ (p : RunParams) (image : List Byte), 2 * p.lmax < image.length →
    (image.length % 2 = 0 → boot p image = .refused .imageTooLong) ∧
    (image.length % 2 = 1 → ∃ s, boot p image = .next s ∧
      s.run = .faulted { kind := .malformedProgram, pc0 := none, opcode := none, info := none })

/-- R25: the reset values, for every image. -/
def Obligations.ResetValues : Prop :=
  ∀ (p : RunParams) (image : List Byte), image.length ≤ 2 * p.lmax →
    ∃ s, boot p image = .next s ∧ s.ip = 0 ∧
      (image.length % 2 = 0 → s.run = .running ∧ s.mem.size = image.length / 2) ∧
      (image.length % 2 = 0 → ∀ k lo hi, image[2 * k]? = some lo → image[2 * k + 1]? = some hi →
        ∃ w, s.mem.read k = some w ∧ w.toNat = lo.toNat + 256 * hi.toNat) ∧
      (image.length % 2 = 1 → ∃ r, s.run = .faulted r ∧ r.kind = .malformedProgram) ∧
      (∀ j, s.reg j = 0) ∧ s.stack = [] ∧ s.output = [] ∧ s.input = p.input ∧ s.inputEnd = p.inputEnd ∧
      s.stackMax = p.stackMax
end

