-- ==== Sys2Proof/Laws/Decode.lean ====
section
/-! SUPPORT. What the decoder can answer: the instruction whose opcode and operand Words stand at the head of the list,
or a rejection by name. -/

namespace Sys2Proof

open Sys2Proof.Machine

/-! ### Operand Words -/

theorem Operand.ofWord_lit (w : Word) (h : w.toNat ≤ 32767) : Operand.ofWord w = .lit (BitVec.ofNat 15 w.toNat) :=
  if_pos h

theorem Operand.ofWord_reg (w : Word) (h : 32768 ≤ w.toNat) (h' : w.toNat ≤ 32775) :
    Operand.ofWord w = .reg (Fin.ofNat 8 (w.toNat - 32768)) := by
  have hn : ¬ w.toNat ≤ Config.valMax := by simp only [Config.valMax]; omega
  rw [Operand.ofWord, if_neg hn, if_pos h']

theorem Operand.ofWord_invalid (w : Word) (h : 32776 ≤ w.toNat) : Operand.ofWord w = .invalid w := by
  have hn : ¬ w.toNat ≤ Config.valMax := by simp only [Config.valMax]; omega
  have hn' : ¬ w.toNat ≤ Config.regTop := by simp only [Config.regTop]; omega
  rw [Operand.ofWord, if_neg hn, if_neg hn']

theorem wordOfVal_toNat (v : Val) : (wordOfVal v).toNat = v.toNat := by
  have := v.isLt
  simp only [wordOfVal, BitVec.toNat_setWidth]
  omega

theorem Operand.toWord_reg_toNat (i : RegIdx) : (Operand.reg i).toWord.toNat = 32768 + i.val := by
  have := i.isLt
  simp only [Operand.toWord, Config.regBase, BitVec.toNat_ofNat]
  omega

/-- Classifying a Word loses nothing of it. -/
theorem Operand.toWord_ofWord (w : Word) : (Operand.ofWord w).toWord = w := by
  apply BitVec.eq_of_toNat_eq
  have hw := w.isLt
  rcases Nat.lt_or_ge w.toNat 32768 with h | h
  · rw [Operand.ofWord_lit w (by omega), Operand.toWord, wordOfVal_toNat, BitVec.toNat_ofNat]
    omega
  · rcases Nat.lt_or_ge w.toNat 32776 with h' | h'
    · rw [Operand.ofWord_reg w h (by omega), Operand.toWord_reg_toNat]
      simp only [Fin.ofNat]
      omega
    · rw [Operand.ofWord_invalid w h']; rfl

/-- An operand that some token accepts is read back from its Word. -/
theorem Operand.ofWord_toWord (t : Token) (o : Operand) (h : t.accepts o = true) : Operand.ofWord o.toWord = o := by
  cases o with
  | lit v =>
    have hv := v.isLt
    have := wordOfVal_toNat v
    rw [Operand.toWord, Operand.ofWord_lit _ (by omega), this, BitVec.ofNat_toNat, BitVec.setWidth_eq]
  | reg i =>
    have hi := i.isLt
    have := Operand.toWord_reg_toNat i
    rw [Operand.ofWord_reg _ (by omega) (by omega), this]
    refine congrArg Operand.reg (Fin.ext ?_)
    show (32768 + i.val - 32768) % 8 = i.val
    omega
  | invalid w => cases t <;> cases h

/-- A token accepts the class of a Word exactly when it takes the Word. -/
theorem Token.accepts_ofWord (t : Token) (w : Word) : t.accepts (.ofWord w) = tokenTakes t w := by
  have hw := w.isLt
  rcases Nat.lt_or_ge w.toNat 32768 with h | h
  · rw [Operand.ofWord_lit w (by omega)]
    cases t <;> simp [Token.accepts, tokenTakes] <;> omega
  · rcases Nat.lt_or_ge w.toNat 32776 with h' | h'
    · rw [Operand.ofWord_reg w h (by omega)]
      cases t <;> simp [Token.accepts, tokenTakes] <;> omega
    · rw [Operand.ofWord_invalid w h']
      cases t <;> simp [Token.accepts, tokenTakes] <;> omega

/-! ### The formats -/

theorem takeV_eq_ok (mk : Operand → Instr) (ws rest : List Word) (i : Instr) :
    takeV mk ws = .ok (i, rest) ↔ ∃ a, ws = a :: rest ∧ i = mk (.ofWord a) := by
  rcases ws with _ | ⟨a, ws⟩ <;> simp [takeV]; grind

theorem takeR_eq_ok (mk : Operand → Instr) (ws rest : List Word) (i : Instr) :
    takeR mk ws = .ok (i, rest) ↔ ∃ a, ws = a :: rest ∧ i = mk (.ofWord a) := by
  rcases ws with _ | ⟨a, ws⟩ <;> simp [takeR]; grind

theorem takeRV_eq_ok (mk : Operand → Operand → Instr) (ws rest : List Word) (i : Instr) :
    takeRV mk ws = .ok (i, rest) ↔ ∃ a b, ws = a :: b :: rest ∧ i = mk (.ofWord a) (.ofWord b) := by
  rcases ws with _ | ⟨a, _ | ⟨b, ws⟩⟩ <;> simp [takeRV]; grind

theorem takeVV_eq_ok (mk : Operand → Operand → Instr) (ws rest : List Word) (i : Instr) :
    takeVV mk ws = .ok (i, rest) ↔ ∃ a b, ws = a :: b :: rest ∧ i = mk (.ofWord a) (.ofWord b) := by
  rcases ws with _ | ⟨a, _ | ⟨b, ws⟩⟩ <;> simp [takeVV]; grind

theorem takeRVV_eq_ok (mk : Operand → Operand → Operand → Instr) (ws rest : List Word) (i : Instr) :
    takeRVV mk ws = .ok (i, rest) ↔
      ∃ a b c, ws = a :: b :: c :: rest ∧ i = mk (.ofWord a) (.ofWord b) (.ofWord c) := by
  rcases ws with _ | ⟨a, _ | ⟨b, _ | ⟨c, ws⟩⟩⟩ <;> simp [takeRVV]; grind

theorem takeV_eq_error (mk : Operand → Instr) (ws : List Word) (r : DecodeReject) :
    takeV mk ws = .error r ↔ ws.length < 1 ∧ r = rejectShort [.V] ws := by
  rcases ws with _ | ⟨a, ws⟩ <;> simp [takeV, eq_comm]

theorem takeR_eq_error (mk : Operand → Instr) (ws : List Word) (r : DecodeReject) :
    takeR mk ws = .error r ↔ ws.length < 1 ∧ r = rejectShort [.R] ws := by
  rcases ws with _ | ⟨a, ws⟩ <;> simp [takeR, eq_comm]

theorem takeRV_eq_error (mk : Operand → Operand → Instr) (ws : List Word) (r : DecodeReject) :
    takeRV mk ws = .error r ↔ ws.length < 2 ∧ r = rejectShort [.R, .V] ws := by
  rcases ws with _ | ⟨a, _ | ⟨b, ws⟩⟩ <;> simp [takeRV, eq_comm]

theorem takeVV_eq_error (mk : Operand → Operand → Instr) (ws : List Word) (r : DecodeReject) :
    takeVV mk ws = .error r ↔ ws.length < 2 ∧ r = rejectShort [.V, .V] ws := by
  rcases ws with _ | ⟨a, _ | ⟨b, ws⟩⟩ <;> simp [takeVV, eq_comm]

theorem takeRVV_eq_error (mk : Operand → Operand → Operand → Instr) (ws : List Word) (r : DecodeReject) :
    takeRVV mk ws = .error r ↔ ws.length < 3 ∧ r = rejectShort [.R, .V, .V] ws := by
  rcases ws with _ | ⟨a, _ | ⟨b, _ | ⟨c, ws⟩⟩⟩ <;> simp [takeRVV, eq_comm]

/-! ### The decoder -/

/-- A decoded instruction has the opcode of the first Word and the operands of the Words after it, as many as the
opcode's shape has tokens, and takes each of them exactly when its token does. -/
theorem decode_eq_ok (ws rest : List Word) (i : Instr) (h : decode ws = .ok (i, rest)) :
    ∃ (op : Word) (os : List Word) (sh : List Token), ws = op :: (os ++ rest) ∧ op.toNat = i.opcode ∧
      i.operands = os.map Operand.ofWord ∧ shapeOf i.opcode = some sh ∧ sh.length = os.length ∧
      i.wf = (List.zipWith tokenTakes sh os).all id := by
  rcases ws with _ | ⟨op, ws⟩
  · exact nomatch h
  · rw [decode] at h
    split at h <;> first
      | contradiction
      | (rename_i hop
         simp only [takeV_eq_ok, takeR_eq_ok, takeRV_eq_ok, takeVV_eq_ok, takeRVV_eq_ok, Except.ok.injEq,
           Prod.mk.injEq] at h
         first
           | (obtain ⟨rfl, rfl⟩ := h
              exact ⟨op, [], [], rfl, hop, rfl, rfl, rfl, rfl⟩)
           | (obtain ⟨a, rfl, rfl⟩ := h
              exact ⟨op, [a], _, rfl, hop, rfl, rfl, rfl, by
                simp [Instr.wf, Token.accepts_ofWord]⟩)
           | (obtain ⟨a, b, rfl, rfl⟩ := h
              exact ⟨op, [a, b], _, rfl, hop, rfl, rfl, rfl, by
                simp [Instr.wf, Token.accepts_ofWord]⟩)
           | (obtain ⟨a, b, c, rfl, rfl⟩ := h
              exact ⟨op, [a, b, c], _, rfl, hop, rfl, rfl, rfl, by
                simp [Instr.wf, Token.accepts_ofWord, Bool.and_assoc]⟩))

/-- A rejection: no Word at all, a Word that is no opcode, or fewer Words than the opcode's shape has tokens. -/
theorem decode_eq_error (ws : List Word) (r : DecodeReject) (h : decode ws = .error r) :
    (ws = [] ∧ r = .truncated) ∨
    ∃ (op : Word) (os : List Word), ws = op :: os ∧
      ((shapeOf op.toNat = none ∧ 22 ≤ op.toNat ∧ r = .unknownOpcode op) ∨
        ∃ sh, shapeOf op.toNat = some sh ∧ os.length < sh.length ∧ r = rejectShort sh os) := by
  rcases ws with _ | ⟨op, ws⟩
  · exact .inl ⟨rfl, (Except.error.inj h).symm⟩
  · refine .inr ⟨op, ws, rfl, ?_⟩
    rw [decode] at h
    split at h <;> first
      | contradiction
      | (rename_i hop
         simp only [takeV_eq_error, takeR_eq_error, takeRV_eq_error, takeVV_eq_error, takeRVV_eq_error] at h
         refine .inr ⟨_, ?_, ?_, h.2⟩
         · rw [hop]; rfl
         · exact h.1)
      | (refine .inl ⟨?_, ?_, (Except.error.inj h).symm⟩
         · unfold shapeOf; split <;> simp_all
         · by_contra hlt
           have : op.toNat < 22 := by omega
           interval_cases hop : op.toNat <;> simp_all)

end Sys2Proof
end

