-- ==== Sys2Proof/Laws/Memory.lean ====
section
/-! SUPPORT. Memory: a read after a write, the canonical form that every memory operation keeps, and the Words of a
window. -/

namespace Sys2Proof.Machine

/-! ### Reading after writing -/

theorem cellWord_eraseCell (cells : List (Nat × Word)) (a b : Nat) :
    cellWord (eraseCell cells a) b = if a = b then 0 else cellWord cells b := by
  induction cells with
  | nil => simp [eraseCell, cellWord]
  | cons p rest ih =>
    obtain ⟨k, w⟩ := p
    by_cases hk : k = a
    · subst hk
      rw [eraseCell, if_pos rfl, ih]
      by_cases hb : k = b <;> simp [cellWord, hb]
    · by_cases hb : k = b
      · subst hb; simp [eraseCell, cellWord, hk, Ne.symm hk]
      · simp [eraseCell, cellWord, hk, hb, ih]

theorem not_mem_keys_eraseCell (cells : List (Nat × Word)) (a : Nat) : a ∉ (eraseCell cells a).map Prod.fst := by
  induction cells with
  | nil => simp [eraseCell]
  | cons p rest ih =>
    obtain ⟨k, w⟩ := p
    by_cases hk : k = a
    · simpa [eraseCell, hk] using ih
    · rw [eraseCell, if_neg hk, List.map_cons, List.mem_cons, not_or]
      exact ⟨Ne.symm hk, ih⟩

theorem cellWord_insertCell (cells : List (Nat × Word)) (a b : Nat) (v : Word) (h : a ∉ cells.map Prod.fst) :
    cellWord (insertCell cells a v) b = if a = b then v else cellWord cells b := by
  induction cells with
  | nil => simp [insertCell, cellWord]
  | cons p rest ih =>
    obtain ⟨k, w⟩ := p
    rw [List.map_cons, List.mem_cons, not_or] at h
    by_cases hlt : a < k
    · simp [insertCell, cellWord, hlt]
    · by_cases hk : k = b
      · subst hk; simp [insertCell, cellWord, hlt, h.1]
      · simp [insertCell, cellWord, hlt, hk, ih h.2]

/-- A store is read back, and leaves every other cell alone. -/
theorem cellWord_storeCell (cells : List (Nat × Word)) (a b : Nat) (v : Word) :
    cellWord (storeCell cells a v) b = if a = b then v else cellWord cells b := by
  by_cases hv : v = Memory.unlisted
  · rw [storeCell, if_pos hv, cellWord_eraseCell]; simp [hv]
  · rw [storeCell, if_neg hv, cellWord_insertCell _ _ _ _ (not_mem_keys_eraseCell cells a), cellWord_eraseCell]
    by_cases hb : a = b <;> simp [hb]

@[simp] theorem Memory.size_write (m : Memory) (a : Nat) (v : Word) : (m.write a v).size = m.size := rfl

theorem Memory.read_write (m : Memory) (a b : Nat) (v : Word) :
    (m.write a v).read b = if a = b ∧ b < m.size then some v else m.read b := by
  by_cases hb : b < m.size <;> by_cases hab : a = b <;>
    simp [Memory.read, Memory.write, cellWord_storeCell, hb, hab]

theorem Memory.read_write_self (m : Memory) (a : Nat) (v : Word) (h : a < m.size) : (m.write a v).read a = some v := by
  simp [Memory.read_write, h]

theorem Memory.read_write_ne (m : Memory) (a b : Nat) (v : Word) (h : b ≠ a) : (m.write a v).read b = m.read b := by
  simp [Memory.read_write, h.symm]

theorem Memory.read_eq_none_iff (m : Memory) (a : Nat) : m.read a = none ↔ m.size ≤ a := by
  by_cases h : a < m.size <;> simp [Memory.read, h]; omega

theorem Memory.lt_size_of_read (m : Memory) (a : Nat) (w : Word) (h : m.read a = some w) : a < m.size := by
  by_contra hn
  simp [Memory.read, hn] at h

/-! ### The canonical form -/

theorem cellsCanonical_cons (size low a : Nat) (w : Word) (rest : List (Nat × Word)) :
    cellsCanonical size low ((a, w) :: rest) = true ↔
      low ≤ a ∧ a < size ∧ w ≠ 0 ∧ cellsCanonical size (a + 1) rest = true := by
  simp [cellsCanonical, and_assoc]

theorem cellsCanonical_mono (size size' low low' : Nat) (cells : List (Nat × Word)) (hs : size ≤ size')
    (hl : low' ≤ low) (h : cellsCanonical size low cells = true) : cellsCanonical size' low' cells = true := by
  induction cells generalizing low low' with
  | nil => rfl
  | cons p rest ih =>
    rw [cellsCanonical_cons] at h ⊢
    exact ⟨by omega, by omega, h.2.2.1, ih _ _ (Nat.le_refl _) h.2.2.2⟩

theorem cellWord_of_lt (size low a : Nat) (cells : List (Nat × Word)) (h : cellsCanonical size low cells = true)
    (ha : a < low) : cellWord cells a = 0 := by
  induction cells generalizing low with
  | nil => rfl
  | cons p rest ih =>
    rw [cellsCanonical_cons] at h
    rw [cellWord, if_neg (by omega), ih _ h.2.2.2 (by omega)]

theorem cellsCanonical_eraseCell (size low a : Nat) (cells : List (Nat × Word))
    (h : cellsCanonical size low cells = true) : cellsCanonical size low (eraseCell cells a) = true := by
  induction cells generalizing low with
  | nil => rfl
  | cons p rest ih =>
    rw [cellsCanonical_cons] at h
    by_cases hk : p.1 = a
    · rw [eraseCell, if_pos hk]
      exact cellsCanonical_mono _ _ _ _ _ (Nat.le_refl _) (by omega) (ih _ h.2.2.2)
    · rw [eraseCell, if_neg hk, cellsCanonical_cons]
      exact ⟨h.1, h.2.1, h.2.2.1, ih _ h.2.2.2⟩

theorem cellsCanonical_insertCell (size low a : Nat) (v : Word) (cells : List (Nat × Word)) (hlow : low ≤ a)
    (hsize : a < size) (hv : v ≠ 0) (hkey : a ∉ cells.map Prod.fst) (h : cellsCanonical size low cells = true) :
    cellsCanonical size low (insertCell cells a v) = true := by
  induction cells generalizing low with
  | nil => rw [insertCell, cellsCanonical_cons]; exact ⟨hlow, hsize, hv, rfl⟩
  | cons p rest ih =>
    rw [cellsCanonical_cons] at h
    rw [List.map_cons, List.mem_cons, not_or] at hkey
    by_cases hlt : a < p.1
    · rw [insertCell, if_pos hlt, cellsCanonical_cons, cellsCanonical_cons]
      exact ⟨hlow, hsize, hv, by omega, h.2⟩
    · rw [insertCell, if_neg hlt, cellsCanonical_cons]
      exact ⟨h.1, h.2.1, h.2.2.1, ih _ (by omega) hkey.2 h.2.2.2⟩

theorem cellsCanonical_storeCell (size low a : Nat) (v : Word) (cells : List (Nat × Word)) (hlow : low ≤ a)
    (hsize : a < size) (h : cellsCanonical size low cells = true) :
    cellsCanonical size low (storeCell cells a v) = true := by
  have he := cellsCanonical_eraseCell size low a cells h
  by_cases hv : v = Memory.unlisted
  · rw [storeCell, if_pos hv]; exact he
  · rw [storeCell, if_neg hv]
    exact cellsCanonical_insertCell _ _ _ _ _ hlow hsize hv (not_mem_keys_eraseCell cells a) he

theorem Memory.wf_write (m : Memory) (a : Nat) (v : Word) (ha : a < m.size) (h : m.wf = true) :
    (m.write a v).wf = true :=
  cellsCanonical_storeCell _ _ _ _ _ (Nat.zero_le _) ha h

theorem cellsCanonical_cellsOfWords (size a : Nat) (ws : List Word) (h : a + ws.length ≤ size) :
    cellsCanonical size a (cellsOfWords a ws) = true := by
  induction ws generalizing a with
  | nil => rfl
  | cons w ws ih =>
    rw [List.length_cons] at h
    have hrest := ih (a + 1) (by omega)
    by_cases hw : w = Memory.unlisted
    · rw [cellsOfWords, if_pos hw]
      exact cellsCanonical_mono _ _ _ _ _ (Nat.le_refl _) (by omega) hrest
    · rw [cellsOfWords, if_neg hw, cellsCanonical_cons]
      exact ⟨Nat.le_refl _, by omega, hw, hrest⟩

theorem memoryOfWords_wf (ws : List Word) : (memoryOfWords ws).wf = true :=
  cellsCanonical_cellsOfWords _ _ _ (by simp [memoryOfWords])

theorem cellsCanonical_storeWords (size a : Nat) (ws : List Word) (cells : List (Nat × Word))
    (hsize : a + ws.length ≤ size) (h : cellsCanonical size 0 cells = true) :
    cellsCanonical size 0 (storeWords cells a ws) = true := by
  induction ws generalizing a cells with
  | nil => exact h
  | cons w ws ih =>
    rw [List.length_cons] at hsize
    exact ih _ _ (by omega) (cellsCanonical_storeCell _ _ _ _ _ (Nat.zero_le _) (by omega) h)

theorem placeWords_mem_wf (s : State) (ws : List Word) (h : s.mem.wf = true) : (placeWords s ws).mem.wf = true :=
  cellsCanonical_storeWords _ _ _ _ (Nat.le_max_right _ _)
    (cellsCanonical_mono _ _ _ _ _ (Nat.le_max_left _ _) (Nat.le_refl _) h)

/-- The reset memory is in canonical form. -/
theorem reset_mem_wf : State.reset.mem.wf = true := by decide

/-! ### What a loaded memory holds -/

theorem cellWord_cellsOfWords_cons (a k : Nat) (w : Word) (ws : List Word) :
    cellWord (cellsOfWords a (w :: ws)) k = if a = k then w else cellWord (cellsOfWords (a + 1) ws) k := by
  by_cases hw : w = Memory.unlisted
  · rw [cellsOfWords, if_pos hw]
    by_cases hk : a = k
    · rw [if_pos hk, hw]
      exact cellWord_of_lt (a + 1 + ws.length) (a + 1) k _ (cellsCanonical_cellsOfWords _ _ _ (Nat.le_refl _)) (by omega)
    · rw [if_neg hk]
  · rw [cellsOfWords, if_neg hw, cellWord]

theorem cellWord_cellsOfWords (a k : Nat) (ws : List Word) :
    cellWord (cellsOfWords a ws) (a + k) = ws.getD k 0 := by
  induction ws generalizing a k with
  | nil => simp [cellsOfWords, cellWord]
  | cons w ws ih =>
    rw [cellWord_cellsOfWords_cons]
    cases k with
    | zero => simp
    | succ k => rw [if_neg (by omega), show a + (k + 1) = a + 1 + k by omega, ih]; simp

theorem read_memoryOfWords (ws : List Word) (k : Nat) : (memoryOfWords ws).read k = ws[k]? := by
  by_cases h : k < ws.length
  · have := cellWord_cellsOfWords 0 k ws
    rw [Nat.zero_add] at this
    simp [Memory.read, memoryOfWords, h, this]
  · simp [Memory.read, memoryOfWords, h]

/-! ### Windows -/

theorem Memory.window_succ (m : Memory) (a n : Nat) :
    m.window a (n + 1) = match m.read a with
      | some w => w :: m.window (a + 1) n
      | none => [] := rfl

theorem Memory.window_succ_some (m : Memory) (a n : Nat) (w : Word) (h : m.read a = some w) :
    m.window a (n + 1) = w :: m.window (a + 1) n := by simp [Memory.window, h]

theorem Memory.window_succ_none (m : Memory) (a n : Nat) (h : m.read a = none) : m.window a (n + 1) = [] := by
  simp [Memory.window, h]

theorem Memory.window_head (m : Memory) (a n : Nat) : (m.window a (n + 1)).head? = m.read a := by
  cases h : m.read a <;> simp [Memory.window, h]

/-- A Word of a window is the Word read at its place. -/
theorem Memory.window_getElem (m : Memory) (a n k : Nat) (w : Word) (h : (m.window a n)[k]? = some w) :
    m.read (a + k) = some w := by
  induction n generalizing a k with
  | zero => simp [Memory.window] at h
  | succ n ih =>
    cases hr : m.read a with
    | none => simp [Memory.window, hr] at h
    | some x =>
      rw [m.window_succ_some a n x hr] at h
      cases k with
      | zero => simpa [hr] using h
      | succ k => rw [show a + (k + 1) = a + 1 + k by omega]; exact ih _ _ (by simpa using h)

/-- Words that stand in memory from `a` on are the head of the window there. -/
theorem Memory.window_append (m : Memory) (a n : Nat) (ws : List Word)
    (h : ∀ k, k < ws.length → m.read (a + k) = ws[k]?) :
    m.window a (ws.length + n) = ws ++ m.window (a + ws.length) n := by
  induction ws generalizing a with
  | nil => simp
  | cons w ws ih =>
    have h0 : m.read a = some w := by simpa using h 0 (by simp)
    have hrest := ih (a + 1) fun k hk => by
      have := h (k + 1) (by simpa using hk)
      simpa [show a + (k + 1) = a + 1 + k by omega] using this
    rw [List.length_cons, show ws.length + 1 + n = (ws.length + n) + 1 by omega, m.window_succ_some a _ w h0, hrest,
      show a + 1 + ws.length = a + (ws.length + 1) by omega]
    rfl

end Sys2Proof.Machine
end

