-- ==== Sys2Proof/Laws/State.lean ====
section
/-! SUPPORT. Each field of the state after each update of it: no proof need unfold a record update. -/

namespace Sys2Proof.Machine

variable (s : State)

@[simp] theorem State.regs_setReg (i : RegIdx) (v : Val) : (s.setReg i v).regs = s.regs.set i v := rfl
@[simp] theorem State.ip_setReg (i : RegIdx) (v : Val) : (s.setReg i v).ip = s.ip := rfl
@[simp] theorem State.stack_setReg (i : RegIdx) (v : Val) : (s.setReg i v).stack = s.stack := rfl
@[simp] theorem State.mem_setReg (i : RegIdx) (v : Val) : (s.setReg i v).mem = s.mem := rfl
@[simp] theorem State.run_setReg (i : RegIdx) (v : Val) : (s.setReg i v).run = s.run := rfl
@[simp] theorem State.output_setReg (i : RegIdx) (v : Val) : (s.setReg i v).output = s.output := rfl
@[simp] theorem State.input_setReg (i : RegIdx) (v : Val) : (s.setReg i v).input = s.input := rfl
@[simp] theorem State.inputEnd_setReg (i : RegIdx) (v : Val) : (s.setReg i v).inputEnd = s.inputEnd := rfl
@[simp] theorem State.stackMax_setReg (i : RegIdx) (v : Val) : (s.setReg i v).stackMax = s.stackMax := rfl

@[simp] theorem State.regs_setIp (a : Nat) : (s.setIp a).regs = s.regs := rfl
@[simp] theorem State.ip_setIp (a : Nat) : (s.setIp a).ip = a := rfl
@[simp] theorem State.stack_setIp (a : Nat) : (s.setIp a).stack = s.stack := rfl
@[simp] theorem State.mem_setIp (a : Nat) : (s.setIp a).mem = s.mem := rfl
@[simp] theorem State.run_setIp (a : Nat) : (s.setIp a).run = s.run := rfl
@[simp] theorem State.output_setIp (a : Nat) : (s.setIp a).output = s.output := rfl
@[simp] theorem State.input_setIp (a : Nat) : (s.setIp a).input = s.input := rfl
@[simp] theorem State.inputEnd_setIp (a : Nat) : (s.setIp a).inputEnd = s.inputEnd := rfl
@[simp] theorem State.stackMax_setIp (a : Nat) : (s.setIp a).stackMax = s.stackMax := rfl

@[simp] theorem State.regs_setStack (st : List Val) : (s.setStack st).regs = s.regs := rfl
@[simp] theorem State.ip_setStack (st : List Val) : (s.setStack st).ip = s.ip := rfl
@[simp] theorem State.stack_setStack (st : List Val) : (s.setStack st).stack = st := rfl
@[simp] theorem State.mem_setStack (st : List Val) : (s.setStack st).mem = s.mem := rfl
@[simp] theorem State.run_setStack (st : List Val) : (s.setStack st).run = s.run := rfl
@[simp] theorem State.output_setStack (st : List Val) : (s.setStack st).output = s.output := rfl
@[simp] theorem State.input_setStack (st : List Val) : (s.setStack st).input = s.input := rfl
@[simp] theorem State.inputEnd_setStack (st : List Val) : (s.setStack st).inputEnd = s.inputEnd := rfl
@[simp] theorem State.stackMax_setStack (st : List Val) : (s.setStack st).stackMax = s.stackMax := rfl

@[simp] theorem State.regs_setMem (m : Memory) : (s.setMem m).regs = s.regs := rfl
@[simp] theorem State.ip_setMem (m : Memory) : (s.setMem m).ip = s.ip := rfl
@[simp] theorem State.stack_setMem (m : Memory) : (s.setMem m).stack = s.stack := rfl
@[simp] theorem State.mem_setMem (m : Memory) : (s.setMem m).mem = m := rfl
@[simp] theorem State.run_setMem (m : Memory) : (s.setMem m).run = s.run := rfl
@[simp] theorem State.output_setMem (m : Memory) : (s.setMem m).output = s.output := rfl
@[simp] theorem State.input_setMem (m : Memory) : (s.setMem m).input = s.input := rfl
@[simp] theorem State.inputEnd_setMem (m : Memory) : (s.setMem m).inputEnd = s.inputEnd := rfl
@[simp] theorem State.stackMax_setMem (m : Memory) : (s.setMem m).stackMax = s.stackMax := rfl

@[simp] theorem State.regs_setRun (r : RunState) : (s.setRun r).regs = s.regs := rfl
@[simp] theorem State.ip_setRun (r : RunState) : (s.setRun r).ip = s.ip := rfl
@[simp] theorem State.stack_setRun (r : RunState) : (s.setRun r).stack = s.stack := rfl
@[simp] theorem State.mem_setRun (r : RunState) : (s.setRun r).mem = s.mem := rfl
@[simp] theorem State.run_setRun (r : RunState) : (s.setRun r).run = r := rfl
@[simp] theorem State.output_setRun (r : RunState) : (s.setRun r).output = s.output := rfl
@[simp] theorem State.input_setRun (r : RunState) : (s.setRun r).input = s.input := rfl
@[simp] theorem State.inputEnd_setRun (r : RunState) : (s.setRun r).inputEnd = s.inputEnd := rfl
@[simp] theorem State.stackMax_setRun (r : RunState) : (s.setRun r).stackMax = s.stackMax := rfl

@[simp] theorem State.regs_setOutput (o : List Val) : (s.setOutput o).regs = s.regs := rfl
@[simp] theorem State.ip_setOutput (o : List Val) : (s.setOutput o).ip = s.ip := rfl
@[simp] theorem State.stack_setOutput (o : List Val) : (s.setOutput o).stack = s.stack := rfl
@[simp] theorem State.mem_setOutput (o : List Val) : (s.setOutput o).mem = s.mem := rfl
@[simp] theorem State.run_setOutput (o : List Val) : (s.setOutput o).run = s.run := rfl
@[simp] theorem State.output_setOutput (o : List Val) : (s.setOutput o).output = o := rfl
@[simp] theorem State.input_setOutput (o : List Val) : (s.setOutput o).input = s.input := rfl
@[simp] theorem State.inputEnd_setOutput (o : List Val) : (s.setOutput o).inputEnd = s.inputEnd := rfl
@[simp] theorem State.stackMax_setOutput (o : List Val) : (s.setOutput o).stackMax = s.stackMax := rfl

@[simp] theorem State.regs_setInput (l : List Byte) : (s.setInput l).regs = s.regs := rfl
@[simp] theorem State.ip_setInput (l : List Byte) : (s.setInput l).ip = s.ip := rfl
@[simp] theorem State.stack_setInput (l : List Byte) : (s.setInput l).stack = s.stack := rfl
@[simp] theorem State.mem_setInput (l : List Byte) : (s.setInput l).mem = s.mem := rfl
@[simp] theorem State.run_setInput (l : List Byte) : (s.setInput l).run = s.run := rfl
@[simp] theorem State.output_setInput (l : List Byte) : (s.setInput l).output = s.output := rfl
@[simp] theorem State.input_setInput (l : List Byte) : (s.setInput l).input = l := rfl
@[simp] theorem State.inputEnd_setInput (l : List Byte) : (s.setInput l).inputEnd = s.inputEnd := rfl
@[simp] theorem State.stackMax_setInput (l : List Byte) : (s.setInput l).stackMax = s.stackMax := rfl

@[simp] theorem State.regs_advance (n : Nat) : (s.advance n).regs = s.regs := rfl
@[simp] theorem State.ip_advance (n : Nat) : (s.advance n).ip = s.ip + n := rfl
@[simp] theorem State.stack_advance (n : Nat) : (s.advance n).stack = s.stack := rfl
@[simp] theorem State.mem_advance (n : Nat) : (s.advance n).mem = s.mem := rfl
@[simp] theorem State.run_advance (n : Nat) : (s.advance n).run = s.run := rfl
@[simp] theorem State.output_advance (n : Nat) : (s.advance n).output = s.output := rfl
@[simp] theorem State.input_advance (n : Nat) : (s.advance n).input = s.input := rfl
@[simp] theorem State.inputEnd_advance (n : Nat) : (s.advance n).inputEnd = s.inputEnd := rfl
@[simp] theorem State.stackMax_advance (n : Nat) : (s.advance n).stackMax = s.stackMax := rfl

/-! ### Registers -/

theorem State.reg_setReg (i j : RegIdx) (v : Val) : (s.setReg i v).reg j = if i = j then v else s.reg j := by
  simp only [State.reg, State.setReg, Vector.get_eq_getElem, Vector.getElem_set, Fin.val_inj]

@[simp] theorem State.reg_setReg_self (i : RegIdx) (v : Val) : (s.setReg i v).reg i = v := by
  simp [State.reg_setReg]

theorem State.reg_setReg_ne (i j : RegIdx) (v : Val) (h : j ≠ i) : (s.setReg i v).reg j = s.reg j := by
  simp [State.reg_setReg, h.symm]

/-- A register depends on the register bank alone. -/
theorem State.reg_eq_of_regs_eq (t : State) (i : RegIdx) (h : t.regs = s.regs) : t.reg i = s.reg i := by
  simp [State.reg, h]

@[simp] theorem State.reg_setIp (a : Nat) (i : RegIdx) : (s.setIp a).reg i = s.reg i := rfl
@[simp] theorem State.reg_setStack (st : List Val) (i : RegIdx) : (s.setStack st).reg i = s.reg i := rfl
@[simp] theorem State.reg_setMem (m : Memory) (i : RegIdx) : (s.setMem m).reg i = s.reg i := rfl
@[simp] theorem State.reg_setRun (r : RunState) (i : RegIdx) : (s.setRun r).reg i = s.reg i := rfl
@[simp] theorem State.reg_setOutput (o : List Val) (i : RegIdx) : (s.setOutput o).reg i = s.reg i := rfl
@[simp] theorem State.reg_setInput (l : List Byte) (i : RegIdx) : (s.setInput l).reg i = s.reg i := rfl
@[simp] theorem State.reg_advance (n : Nat) (i : RegIdx) : (s.advance n).reg i = s.reg i := rfl

/-! ### Taking a fault -/

/-- A fault of the instruction at `ip` changes the run state and nothing else. -/
theorem takeFault_at_ip (r : FaultRecord) (h : r.pc0 = some s.ip) : takeFault r s = { s with run := .faulted r } := by
  simp [takeFault, h, State.setRun, State.setIp]

end Sys2Proof.Machine
end

