-- ==== Sys2Proof/Laws/Ops.lean ====
section
/-! SUPPORT. For each shared operation, once, everything it can do: what holds when it answers a value or a state, and
when it stops. -/

namespace Sys2Proof.Machine

/-! ### The resolver -/

theorem valOf_eq_ok (s : State) (o : Operand) (v : Val) :
    valOf s o = .ok v ↔ o = .lit v ∨ ∃ i, o = .reg i ∧ s.reg i = v := by
  cases o <;> simp [valOf]

theorem valOf_eq_error (s : State) (o : Operand) (e : Stop) :
    valOf s o = .error e ↔ ∃ w, o = .invalid w ∧ e = .raise .invalidOperand (some w.toNat) := by
  cases o <;> simp [valOf, eq_comm]

theorem regOf_eq_ok (o : Operand) (i : RegIdx) : regOf o = .ok i ↔ o = .reg i := by
  cases o <;> simp [regOf]

theorem regOf_eq_error (o : Operand) (e : Stop) :
    regOf o = .error e ↔
      (∃ v, o = .lit v ∧ e = .raise .invalidOperand (some v.toNat)) ∨
      ∃ w, o = .invalid w ∧ e = .raise .invalidOperand (some w.toNat) := by
  cases o <;> simp [regOf, eq_comm]

/-! ### Registers and the stack -/

theorem writeReg_eq_ok (i : RegIdx) (v : Nat) (s t : State) :
    writeReg i v s = .ok t ↔ v ≤ 32767 ∧ t = s.setReg i (BitVec.ofNat 15 v) := by
  by_cases h : v ≤ 32767 <;> simp [writeReg, h, eq_comm]

theorem writeReg_eq_error (i : RegIdx) (v : Nat) (s : State) (e : Stop) :
    writeReg i v s = .error e ↔ 32767 < v ∧ e = .raise .nonCanonicalValue (some v) := by
  by_cases h : v ≤ 32767
  · simp [writeReg, h]
  · simp [writeReg, h, eq_comm]; omega

theorem writeReg_of_le (i : RegIdx) (v : Nat) (s : State) (h : v ≤ 32767) :
    writeReg i v s = .ok (s.setReg i (BitVec.ofNat 15 v)) :=
  (writeReg_eq_ok _ _ _ _).2 ⟨h, rfl⟩

/-- A Val is always written. -/
theorem writeReg_val (i : RegIdx) (v : Val) (s : State) : writeReg i v.toNat s = .ok (s.setReg i v) := by
  have h := v.isLt
  rw [writeReg_eq_ok]
  exact ⟨by omega, by simp⟩

theorem pushVal_eq_ok (v : Nat) (s t : State) :
    pushVal v s = .ok t ↔ v ≤ 32767 ∧ s.hasRoom = true ∧ t = s.setStack (BitVec.ofNat 15 v :: s.stack) := by
  by_cases h : v ≤ 32767 <;> by_cases hr : s.hasRoom = true <;> simp [pushVal, h, hr, eq_comm]

theorem pushVal_eq_error (v : Nat) (s : State) (e : Stop) :
    pushVal v s = .error e ↔
      (32767 < v ∧ e = .raise .nonCanonicalValue (some v)) ∨
      (v ≤ 32767 ∧ s.hasRoom = false ∧ e = .refuse .stackFull) := by
  by_cases h : v ≤ 32767
  · have h' : ¬ 32767 < v := by omega
    cases hr : s.hasRoom <;> simp [pushVal, h, h', hr]
    exact eq_comm
  · have h' : 32767 < v := by omega
    simp only [pushVal, h, h', if_false, Except.error.injEq, true_and, false_and, or_false]
    exact eq_comm

theorem popVal_eq_ok (s t : State) (v : Val) :
    popVal s = .ok (v, t) ↔ ∃ rest, s.stack = v :: rest ∧ t = s.setStack rest := by
  cases h : s.stack <;> simp [popVal, h, eq_comm, and_comm]

theorem popVal_eq_error (s : State) (e : Stop) :
    popVal s = .error e ↔ s.stack = [] ∧ e = .raise .stackUnderflow none := by
  cases h : s.stack <;> simp [popVal, h, eq_comm]

/-! ### Memory -/

theorem memRead_eq_ok (a : Nat) (s : State) (w : Word) : memRead a s = .ok w ↔ s.mem.read a = some w := by
  cases h : s.mem.read a <;> simp [memRead, h]

theorem memRead_eq_error (a : Nat) (s : State) (e : Stop) :
    memRead a s = .error e ↔ s.mem.size ≤ a ∧ e = .raise .memoryFault (some a) := by
  rw [← Memory.read_eq_none_iff]
  cases h : s.mem.read a <;> simp [memRead, h, eq_comm]

theorem memWrite_eq_ok (a : Nat) (v : Word) (s t : State) :
    memWrite a v s = .ok t ↔ a < s.mem.size ∧ t = s.setMem (s.mem.write a v) := by
  by_cases h : a < s.mem.size <;> simp [memWrite, h, eq_comm]

theorem memWrite_eq_error (a : Nat) (v : Word) (s : State) (e : Stop) :
    memWrite a v s = .error e ↔ s.mem.size ≤ a ∧ e = .raise .memoryFault (some a) := by
  by_cases h : a < s.mem.size
  · simp [memWrite, h]
  · simp [memWrite, h, eq_comm]; omega

/-! ### Input and division -/

theorem nextInput_eq_ok (s t : State) (c : Byte) :
    nextInput s = .ok (c, t) ↔ ∃ rest, s.input = c :: rest ∧ t = s.setInput rest := by
  cases h : s.input <;> cases he : s.inputEnd <;> simp [nextInput, h, he, eq_comm, and_comm]

theorem nextInput_eq_error (s : State) (e : Stop) :
    nextInput s = .error e ↔
      s.input = [] ∧ ((s.inputEnd = .ended ∧ e = .raise .inputExhausted none) ∨
        (s.inputEnd = .pending ∧ e = .stuck .awaitingInput)) := by
  cases h : s.input <;> cases he : s.inputEnd <;> simp [nextInput, h, he, eq_comm]

theorem remainder_eq_ok (n d r : Nat) : remainder n d = .ok r ↔ d ≠ 0 ∧ r = n % d := by
  by_cases h : d = 0 <;> simp [remainder, h, eq_comm]

theorem remainder_eq_error (n d : Nat) (e : Stop) : remainder n d = .error e ↔ d = 0 ∧ e = .raise .divideByZero none := by
  by_cases h : d = 0 <;> simp [remainder, h, eq_comm]

/-! ### How an instruction ends -/

/-- A next state is the body's, or the starting state with the raised fault. -/
theorem finish_eq_next (i : Instr) (s t : State) (body : Except Stop State) :
    finish i s body = .next t ↔
      body = .ok t ∨ ∃ kind info, body = .error (.raise kind info) ∧
        t = { s with run := .faulted { kind := kind, pc0 := some s.ip, opcode := some i.opcodeWord, info := info } } := by
  rcases body with (_ | _ | _) | t' <;> simp [finish, takeFault_at_ip, eq_comm]

theorem finish_eq_fault (i : Instr) (s : State) (f : Fault) (body : Except Stop State) :
    finish i s body = .fault f ↔ body = .error (.stuck f) := by
  rcases body with (_ | _ | _) | t' <;> simp [finish]

theorem finish_eq_refused (i : Instr) (s : State) (r : Refusal) (body : Except Stop State) :
    finish i s body = .refused r ↔ body = .error (.refuse r) := by
  rcases body with (_ | _ | _) | t' <;> simp [finish]

end Sys2Proof.Machine
end

