-- ==== Sys2Proof/Laws/Exec.lean ====
section
/-! SUPPORT. What executing an instruction can do, once for each: `Done i s t` says how `i` completes from `s` in `t`,
and `mayRaise` which faults it can take. Every claim about exec's next states goes through `exec_next`. -/

namespace Sys2Proof.Machine

/-- `i`, started in `s`, completes in `t`. -/
def Done (i : Instr) (s t : State) : Prop :=
  match i with
  | .halt => t = (s.advance 1).setRun .halted
  | .set a b => ∃ ra vb, regOf a = .ok ra ∧ valOf s b = .ok vb ∧ t = (s.advance 3).setReg ra vb
  | .push a => ∃ va, valOf s a = .ok va ∧ s.hasRoom = true ∧ t = (s.advance 2).setStack (va :: s.stack)
  | .pop a => ∃ ra v rest, regOf a = .ok ra ∧ s.stack = v :: rest ∧ t = ((s.advance 2).setStack rest).setReg ra v
  | .eq a b c => ∃ ra vb vc, regOf a = .ok ra ∧ valOf s b = .ok vb ∧ valOf s c = .ok vc ∧
      t = (s.advance 4).setReg ra (BitVec.ofNat 15 (if vb = vc then 1 else 0))
  | .gt a b c => ∃ ra vb vc, regOf a = .ok ra ∧ valOf s b = .ok vb ∧ valOf s c = .ok vc ∧
      t = (s.advance 4).setReg ra (BitVec.ofNat 15 (if vc.toNat < vb.toNat then 1 else 0))
  | .jmp a => ∃ va, valOf s a = .ok va ∧ t = s.setIp va.toNat
  | .jnz a b => ∃ va vb, valOf s a = .ok va ∧ valOf s b = .ok vb ∧
      t = s.setIp (if va.toNat ≠ 0 then vb.toNat else s.ip + 3)
  | .jez a b => ∃ va vb, valOf s a = .ok va ∧ valOf s b = .ok vb ∧
      t = s.setIp (if va.toNat = 0 then vb.toNat else s.ip + 3)
  | .add a b c => ∃ ra vb vc, regOf a = .ok ra ∧ valOf s b = .ok vb ∧ valOf s c = .ok vc ∧
      t = (s.advance 4).setReg ra (BitVec.ofNat 15 ((vb.toNat + vc.toNat) % 32768))
  | .mult a b c => ∃ ra vb vc, regOf a = .ok ra ∧ valOf s b = .ok vb ∧ valOf s c = .ok vc ∧
      t = (s.advance 4).setReg ra (BitVec.ofNat 15 ((vb.toNat * vc.toNat) % 32768))
  | .mod a b c => ∃ ra vb vc, regOf a = .ok ra ∧ valOf s b = .ok vb ∧ valOf s c = .ok vc ∧ vc.toNat ≠ 0 ∧
      t = (s.advance 4).setReg ra (BitVec.ofNat 15 (vb.toNat % vc.toNat))
  | .and a b c => ∃ ra vb vc, regOf a = .ok ra ∧ valOf s b = .ok vb ∧ valOf s c = .ok vc ∧
      t = (s.advance 4).setReg ra (vb &&& vc)
  | .or a b c => ∃ ra vb vc, regOf a = .ok ra ∧ valOf s b = .ok vb ∧ valOf s c = .ok vc ∧
      t = (s.advance 4).setReg ra (vb ||| vc)
  | .not a b => ∃ ra vb, regOf a = .ok ra ∧ valOf s b = .ok vb ∧
      t = (s.advance 3).setReg ra (BitVec.ofNat 15 (32767 - vb.toNat))
  | .rmem a b => ∃ ra vb w, regOf a = .ok ra ∧ valOf s b = .ok vb ∧ s.mem.read vb.toNat = some w ∧ w.toNat ≤ 32767 ∧
      t = (s.advance 3).setReg ra (BitVec.ofNat 15 w.toNat)
  | .wmem a b => ∃ va vb, valOf s a = .ok va ∧ valOf s b = .ok vb ∧ va.toNat < s.mem.size ∧
      t = (s.advance 3).setMem (s.mem.write va.toNat (wordOfVal vb))
  | .call a => ∃ va, valOf s a = .ok va ∧ s.ip + 2 ≤ 32767 ∧ s.hasRoom = true ∧
      t = (s.setStack (BitVec.ofNat 15 (s.ip + 2) :: s.stack)).setIp va.toNat
  | .ret => ∃ v rest, s.stack = v :: rest ∧ t = (s.setStack rest).setIp v.toNat
  | .out a => ∃ va, valOf s a = .ok va ∧ t = (s.advance 2).setOutput (s.output ++ [va])
  | .inp a => ∃ ra c rest, regOf a = .ok ra ∧ s.input = c :: rest ∧
      t = ((s.advance 2).setInput rest).setReg ra (BitVec.ofNat 15 c.toNat)
  | .noop => t = s.advance 1

/-- The faults executing an instruction can raise (spec/60_exceptions.md R96). -/
def mayRaise (i : Instr) (kind : FaultKind) : Bool :=
  match kind with
  | .malformedProgram => false
  | .memoryFault => i.opcode ∈ [15, 16]
  | .invalidOperand => i.opcode ∉ [0, 18, 21]
  | .stackUnderflow => i.opcode ∈ [3, 18]
  | .divideByZero => i.opcode = 11
  | .unknownOpcode => false
  | .inputExhausted => i.opcode = 20
  | .nonCanonicalValue => i.opcode ∈ [15, 17]

/-- `t` is `s` with a fault of `i` taken. -/
def Raised (i : Instr) (s t : State) : Prop :=
  ∃ kind info, mayRaise i kind = true ∧
    t = { s with run := .faulted { kind := kind, pc0 := some s.ip, opcode := some i.opcodeWord, info := info } }

theorem truthValue_le (b : Bool) : truthValue b ≤ 32767 := by cases b <;> decide

/-- What is left of a stop when its reasons are forgotten: a raised fault is one `i` may raise. -/
def StopOf (i : Instr) (e : Stop) : Prop := ∀ kind info, e = .raise kind info → mayRaise i kind = true

/-- A computation answers a value with `P`, or stops for a reason of `i`'s. -/
def Ends {α : Type} (i : Instr) (P : α → Prop) (x : Except Stop α) : Prop :=
  (∀ a, x = .ok a → P a) ∧ ∀ e, x = .error e → StopOf i e

theorem Ends.bind {α β : Type} {i : Instr} {P : β → Prop} {x : Except Stop α} {f : α → Except Stop β}
    (h : Ends i (fun a => Ends i P (f a)) x) : Ends i P (x >>= f) := by
  cases x with
  | error e => exact ⟨fun _ h' => (nomatch h'), fun e' h' => h.2 e' (Except.error.inj h' ▸ rfl)⟩
  | ok a => exact h.1 a rfl

theorem Ends.ok {α : Type} {i : Instr} {P : α → Prop} {a : α} (h : P a) : Ends i P (.ok a) :=
  ⟨fun _ h' => (Except.ok.inj h') ▸ h, fun _ h' => nomatch h'⟩

theorem ends_valOf {i : Instr} {P : Val → Prop} {s : State} {o : Operand}
    (hi : mayRaise i .invalidOperand = true) (h : ∀ v, valOf s o = .ok v → P v) : Ends i P (valOf s o) := by
  refine ⟨h, fun e he kind info hk => ?_⟩
  obtain ⟨w, -, rfl⟩ := (valOf_eq_error s o e).1 he
  injection hk with hk; exact hk ▸ hi

theorem ends_regOf {i : Instr} {P : RegIdx → Prop} {o : Operand}
    (hi : mayRaise i .invalidOperand = true) (h : ∀ r, regOf o = .ok r → P r) : Ends i P (regOf o) := by
  refine ⟨h, fun e he kind info hk => ?_⟩
  obtain ⟨w, -, rfl⟩ | ⟨w, -, rfl⟩ := (regOf_eq_error o e).1 he <;> (injection hk with hk; exact hk ▸ hi)

theorem ends_writeReg {i : Instr} {P : State → Prop} {r : RegIdx} {v : Nat} {s : State}
    (hv : v ≤ 32767 ∨ mayRaise i .nonCanonicalValue = true)
    (h : v ≤ 32767 → P (s.setReg r (BitVec.ofNat 15 v))) : Ends i P (writeReg r v s) := by
  refine ⟨fun t ht => ?_, fun e he kind info hk => ?_⟩
  · obtain ⟨hle, rfl⟩ := (writeReg_eq_ok r v s t).1 ht; exact h hle
  · obtain ⟨hlt, rfl⟩ := (writeReg_eq_error r v s e).1 he
    injection hk with hk; exact hk ▸ hv.resolve_left (by omega)

theorem ends_writeReg_val {i : Instr} {P : State → Prop} {r : RegIdx} {v : Val} {s : State}
    (h : P (s.setReg r v)) : Ends i P (writeReg r v.toNat s) := by
  rw [writeReg_val]; exact .ok h

theorem ends_pushVal {i : Instr} {P : State → Prop} {v : Nat} {s : State}
    (hv : v ≤ 32767 ∨ mayRaise i .nonCanonicalValue = true)
    (h : v ≤ 32767 → s.hasRoom = true → P (s.setStack (BitVec.ofNat 15 v :: s.stack))) : Ends i P (pushVal v s) := by
  refine ⟨fun t ht => ?_, fun e he kind info hk => ?_⟩
  · obtain ⟨hle, hr, rfl⟩ := (pushVal_eq_ok v s t).1 ht; exact h hle hr
  · obtain ⟨hlt, rfl⟩ | ⟨-, -, rfl⟩ := (pushVal_eq_error v s e).1 he
    · injection hk with hk; exact hk ▸ hv.resolve_left (by omega)
    · exact nomatch hk

theorem ends_popVal {i : Instr} {P : Val × State → Prop} {s : State} (hi : mayRaise i .stackUnderflow = true)
    (h : ∀ v rest, s.stack = v :: rest → P (v, s.setStack rest)) : Ends i P (popVal s) := by
  refine ⟨fun ⟨v, t⟩ ht => ?_, fun e he kind info hk => ?_⟩
  · obtain ⟨rest, hs, rfl⟩ := (popVal_eq_ok s t v).1 ht; exact h v rest hs
  · obtain ⟨-, rfl⟩ := (popVal_eq_error s e).1 he
    injection hk with hk; exact hk ▸ hi

theorem ends_memRead {i : Instr} {P : Word → Prop} {a : Nat} {s : State} (hi : mayRaise i .memoryFault = true)
    (h : ∀ w, s.mem.read a = some w → P w) : Ends i P (memRead a s) := by
  refine ⟨fun w hw => h w ((memRead_eq_ok a s w).1 hw), fun e he kind info hk => ?_⟩
  obtain ⟨-, rfl⟩ := (memRead_eq_error a s e).1 he
  injection hk with hk; exact hk ▸ hi

theorem ends_memWrite {i : Instr} {P : State → Prop} {a : Nat} {v : Word} {s : State}
    (hi : mayRaise i .memoryFault = true) (h : a < s.mem.size → P (s.setMem (s.mem.write a v))) :
    Ends i P (memWrite a v s) := by
  refine ⟨fun t ht => ?_, fun e he kind info hk => ?_⟩
  · obtain ⟨hlt, rfl⟩ := (memWrite_eq_ok a v s t).1 ht; exact h hlt
  · obtain ⟨-, rfl⟩ := (memWrite_eq_error a v s e).1 he
    injection hk with hk; exact hk ▸ hi

theorem ends_nextInput {i : Instr} {P : Byte × State → Prop} {s : State}
    (hi : mayRaise i .inputExhausted = true)
    (h : ∀ c rest, s.input = c :: rest → P (c, s.setInput rest)) : Ends i P (nextInput s) := by
  refine ⟨fun ⟨c, t⟩ ht => ?_, fun e he kind info hk => ?_⟩
  · obtain ⟨rest, hs, rfl⟩ := (nextInput_eq_ok s t c).1 ht; exact h c rest hs
  · obtain ⟨-, ⟨-, rfl⟩ | ⟨-, rfl⟩⟩ := (nextInput_eq_error s e).1 he
    · injection hk with hk; exact hk ▸ hi
    · exact nomatch hk

theorem ends_remainder {i : Instr} {P : Nat → Prop} {n d : Nat} (hi : mayRaise i .divideByZero = true)
    (h : d ≠ 0 → P (n % d)) : Ends i P (remainder n d) := by
  refine ⟨fun r hr => ?_, fun e he kind info hk => ?_⟩
  · obtain ⟨hd, rfl⟩ := (remainder_eq_ok n d r).1 hr; exact h hd
  · obtain ⟨-, rfl⟩ := (remainder_eq_error n d e).1 he
    injection hk with hk; exact hk ▸ hi

theorem finish_next {i : Instr} {s t : State} {body : Except Stop State} (h : finish i s body = .next t)
    (hb : Ends i (Done i s) body) : Done i s t ∨ Raised i s t := by
  obtain h | ⟨kind, info, he, rfl⟩ := (finish_eq_next i s t body).1 h
  · exact .inl (hb.1 t h)
  · exact .inr ⟨kind, info, hb.2 _ he kind info rfl, rfl⟩

/-! ### One lemma for each instruction -/

theorem execHalt_next {s t : State} (h : execHalt s = .next t) : Done .halt s t ∨ Raised .halt s t :=
  finish_next h (.ok rfl)

theorem execNoop_next {s t : State} (h : execNoop s = .next t) : Done .noop s t ∨ Raised .noop s t :=
  finish_next h (.ok rfl)

theorem execSet_next {a b : Operand} {s t : State} (h : execSet a b s = .next t) :
    Done (.set a b) s t ∨ Raised (.set a b) s t :=
  finish_next h (.bind <| ends_regOf rfl fun _ ha => .bind <| ends_valOf rfl fun _ hb =>
    ends_writeReg_val ⟨_, _, ha, hb, rfl⟩)

theorem execPush_next {a : Operand} {s t : State} (h : execPush a s = .next t) :
    Done (.push a) s t ∨ Raised (.push a) s t :=
  finish_next h (.bind <| ends_valOf rfl fun va ha => ends_pushVal (.inl (by have := va.isLt; omega))
    fun _ hr => ⟨va, ha, hr, by simp [BitVec.ofNat_toNat]⟩)

theorem execPop_next {a : Operand} {s t : State} (h : execPop a s = .next t) :
    Done (.pop a) s t ∨ Raised (.pop a) s t :=
  finish_next h (.bind <| ends_regOf rfl fun _ ha => .bind <| ends_popVal rfl fun _ _ hs =>
    ends_writeReg_val ⟨_, _, _, ha, hs, rfl⟩)

theorem execEq_next {a b c : Operand} {s t : State} (h : execEq a b c s = .next t) :
    Done (.eq a b c) s t ∨ Raised (.eq a b c) s t :=
  finish_next h (.bind <| ends_regOf rfl fun _ ha => .bind <| ends_valOf rfl fun vb hb => .bind <|
    ends_valOf rfl fun vc hc => ends_writeReg (.inl (truthValue_le _)) fun _ =>
      ⟨_, vb, vc, ha, hb, hc, by simp [truthValue, BitVec.toNat_inj]⟩)

theorem execGt_next {a b c : Operand} {s t : State} (h : execGt a b c s = .next t) :
    Done (.gt a b c) s t ∨ Raised (.gt a b c) s t :=
  finish_next h (.bind <| ends_regOf rfl fun _ ha => .bind <| ends_valOf rfl fun vb hb => .bind <|
    ends_valOf rfl fun vc hc => ends_writeReg (.inl (truthValue_le _)) fun _ =>
      ⟨_, vb, vc, ha, hb, hc, by simp [truthValue]⟩)

theorem execJmp_next {a : Operand} {s t : State} (h : execJmp a s = .next t) :
    Done (.jmp a) s t ∨ Raised (.jmp a) s t :=
  finish_next h (.bind <| ends_valOf rfl fun _ ha => .ok ⟨_, ha, rfl⟩)

theorem execJnz_next {a b : Operand} {s t : State} (h : execJnz a b s = .next t) :
    Done (.jnz a b) s t ∨ Raised (.jnz a b) s t :=
  finish_next h (.bind <| ends_valOf rfl fun va ha => .bind <| ends_valOf rfl fun vb hb =>
    .ok ⟨va, vb, ha, hb, by split <;> rfl⟩)

theorem execJez_next {a b : Operand} {s t : State} (h : execJez a b s = .next t) :
    Done (.jez a b) s t ∨ Raised (.jez a b) s t :=
  finish_next h (.bind <| ends_valOf rfl fun va ha => .bind <| ends_valOf rfl fun vb hb =>
    .ok ⟨va, vb, ha, hb, by split <;> rfl⟩)

theorem execAdd_next {a b c : Operand} {s t : State} (h : execAdd a b c s = .next t) :
    Done (.add a b c) s t ∨ Raised (.add a b c) s t :=
  finish_next h (.bind <| ends_regOf rfl fun _ ha => .bind <| ends_valOf rfl fun _ hb => .bind <|
    ends_valOf rfl fun _ hc => ends_writeReg (.inl (Nat.le_of_lt_succ (Nat.mod_lt _ (by decide)))) fun _ =>
      ⟨_, _, _, ha, hb, hc, rfl⟩)

theorem execMult_next {a b c : Operand} {s t : State} (h : execMult a b c s = .next t) :
    Done (.mult a b c) s t ∨ Raised (.mult a b c) s t :=
  finish_next h (.bind <| ends_regOf rfl fun _ ha => .bind <| ends_valOf rfl fun _ hb => .bind <|
    ends_valOf rfl fun _ hc => ends_writeReg (.inl (Nat.le_of_lt_succ (Nat.mod_lt _ (by decide)))) fun _ =>
      ⟨_, _, _, ha, hb, hc, rfl⟩)

theorem execMod_next {a b c : Operand} {s t : State} (h : execMod a b c s = .next t) :
    Done (.mod a b c) s t ∨ Raised (.mod a b c) s t :=
  finish_next h (.bind <| ends_regOf rfl fun _ ha => .bind <| ends_valOf rfl fun vb hb => .bind <|
    ends_valOf rfl fun vc hc => .bind <| ends_remainder rfl fun hd =>
      ends_writeReg (.inl (by have := vb.isLt; have := Nat.mod_le vb.toNat vc.toNat; omega)) fun _ =>
      ⟨_, vb, vc, ha, hb, hc, hd, rfl⟩)

theorem execAnd_next {a b c : Operand} {s t : State} (h : execAnd a b c s = .next t) :
    Done (.and a b c) s t ∨ Raised (.and a b c) s t :=
  finish_next h (.bind <| ends_regOf rfl fun _ ha => .bind <| ends_valOf rfl fun _ hb => .bind <|
    ends_valOf rfl fun _ hc => ends_writeReg_val ⟨_, _, _, ha, hb, hc, rfl⟩)

theorem execOr_next {a b c : Operand} {s t : State} (h : execOr a b c s = .next t) :
    Done (.or a b c) s t ∨ Raised (.or a b c) s t :=
  finish_next h (.bind <| ends_regOf rfl fun _ ha => .bind <| ends_valOf rfl fun _ hb => .bind <|
    ends_valOf rfl fun _ hc => ends_writeReg_val ⟨_, _, _, ha, hb, hc, rfl⟩)

theorem execNot_next {a b : Operand} {s t : State} (h : execNot a b s = .next t) :
    Done (.not a b) s t ∨ Raised (.not a b) s t :=
  finish_next h (.bind <| ends_regOf rfl fun _ ha => .bind <| ends_valOf rfl fun _ hb =>
    ends_writeReg (.inl (Nat.sub_le _ _)) fun _ => ⟨_, _, ha, hb, rfl⟩)

theorem execRmem_next {a b : Operand} {s t : State} (h : execRmem a b s = .next t) :
    Done (.rmem a b) s t ∨ Raised (.rmem a b) s t :=
  finish_next h (.bind <| ends_regOf rfl fun _ ha => .bind <| ends_valOf rfl fun _ hb => .bind <|
    ends_memRead rfl fun _ hw => ends_writeReg (.inr rfl) fun hle => ⟨_, _, _, ha, hb, hw, hle, rfl⟩)

theorem execWmem_next {a b : Operand} {s t : State} (h : execWmem a b s = .next t) :
    Done (.wmem a b) s t ∨ Raised (.wmem a b) s t :=
  finish_next h (.bind <| ends_valOf rfl fun _ ha => .bind <| ends_valOf rfl fun _ hb =>
    ends_memWrite rfl fun hlt => ⟨_, _, ha, hb, hlt, rfl⟩)

theorem execCall_next {a : Operand} {s t : State} (h : execCall a s = .next t) :
    Done (.call a) s t ∨ Raised (.call a) s t :=
  finish_next h (.bind <| ends_valOf rfl fun _ ha => .bind <| ends_pushVal (.inr rfl) fun hle hr =>
    .ok ⟨_, ha, hle, hr, rfl⟩)

theorem execRet_next {s t : State} (h : execRet s = .next t) : Done .ret s t ∨ Raised .ret s t :=
  finish_next h (.bind <| ends_popVal rfl fun _ _ hs => .ok ⟨_, _, hs, rfl⟩)

theorem execOut_next {a : Operand} {s t : State} (h : execOut a s = .next t) :
    Done (.out a) s t ∨ Raised (.out a) s t :=
  finish_next h (.bind <| ends_valOf rfl fun _ ha => .ok ⟨_, ha, rfl⟩)

theorem execInp_next {a : Operand} {s t : State} (h : execInp a s = .next t) :
    Done (.inp a) s t ∨ Raised (.inp a) s t :=
  finish_next h (.bind <| ends_regOf rfl fun _ ha => .bind <| ends_nextInput rfl fun c _ hc =>
    ends_writeReg (.inl (by have := c.isLt; omega)) fun _ => ⟨_, _, _, ha, hc, rfl⟩)

/-- A next state of an instruction is its completion or one of its faults. -/
theorem exec_next {i : Instr} {s t : State} (h : exec i s = .next t) : Done i s t ∨ Raised i s t := by
  cases i with
  | halt => exact execHalt_next h
  | set a b => exact execSet_next h
  | push a => exact execPush_next h
  | pop a => exact execPop_next h
  | eq a b c => exact execEq_next h
  | gt a b c => exact execGt_next h
  | jmp a => exact execJmp_next h
  | jnz a b => exact execJnz_next h
  | jez a b => exact execJez_next h
  | add a b c => exact execAdd_next h
  | mult a b c => exact execMult_next h
  | mod a b c => exact execMod_next h
  | and a b c => exact execAnd_next h
  | or a b c => exact execOr_next h
  | not a b => exact execNot_next h
  | rmem a b => exact execRmem_next h
  | wmem a b => exact execWmem_next h
  | call a => exact execCall_next h
  | ret => exact execRet_next h
  | out a => exact execOut_next h
  | inp a => exact execInp_next h
  | noop => exact execNoop_next h

end Sys2Proof.Machine
end

