-- ==== Sys2Proof/Laws/PerInstr.lean ====
section
/-! SUPPORT. Statements made of every instruction as syntax, one lemma for each constructor. -/

namespace Sys2Proof.Laws.EncodedLength

open Sys2Proof Sys2Proof.Machine

/-- The encoding has the length of R44, the opcode Word is the opcode of R51, and the operands are as many as the tokens
of the opcode's shape (R46). -/
def Statement (i : Instr) : Prop :=
  (encode i).length = i.length ∧ (encode i).head? = some i.opcodeWord ∧ i.opcodeWord.toNat = i.opcode ∧
    (shapeOf i.opcode).map List.length = some i.operands.length

theorem halt : Statement (.halt) := ⟨rfl, rfl, rfl, rfl⟩
theorem set (a b : Operand) : Statement (.set a b) := ⟨rfl, rfl, rfl, rfl⟩
theorem push (a : Operand) : Statement (.push a) := ⟨rfl, rfl, rfl, rfl⟩
theorem pop (a : Operand) : Statement (.pop a) := ⟨rfl, rfl, rfl, rfl⟩
theorem eq (a b c : Operand) : Statement (.eq a b c) := ⟨rfl, rfl, rfl, rfl⟩
theorem gt (a b c : Operand) : Statement (.gt a b c) := ⟨rfl, rfl, rfl, rfl⟩
theorem jmp (a : Operand) : Statement (.jmp a) := ⟨rfl, rfl, rfl, rfl⟩
theorem jnz (a b : Operand) : Statement (.jnz a b) := ⟨rfl, rfl, rfl, rfl⟩
theorem jez (a b : Operand) : Statement (.jez a b) := ⟨rfl, rfl, rfl, rfl⟩
theorem add (a b c : Operand) : Statement (.add a b c) := ⟨rfl, rfl, rfl, rfl⟩
theorem mult (a b c : Operand) : Statement (.mult a b c) := ⟨rfl, rfl, rfl, rfl⟩
theorem mod (a b c : Operand) : Statement (.mod a b c) := ⟨rfl, rfl, rfl, rfl⟩
theorem and (a b c : Operand) : Statement (.and a b c) := ⟨rfl, rfl, rfl, rfl⟩
theorem or (a b c : Operand) : Statement (.or a b c) := ⟨rfl, rfl, rfl, rfl⟩
theorem not (a b : Operand) : Statement (.not a b) := ⟨rfl, rfl, rfl, rfl⟩
theorem rmem (a b : Operand) : Statement (.rmem a b) := ⟨rfl, rfl, rfl, rfl⟩
theorem wmem (a b : Operand) : Statement (.wmem a b) := ⟨rfl, rfl, rfl, rfl⟩
theorem call (a : Operand) : Statement (.call a) := ⟨rfl, rfl, rfl, rfl⟩
theorem ret : Statement (.ret) := ⟨rfl, rfl, rfl, rfl⟩
theorem out (a : Operand) : Statement (.out a) := ⟨rfl, rfl, rfl, rfl⟩
theorem inp (a : Operand) : Statement (.inp a) := ⟨rfl, rfl, rfl, rfl⟩
theorem noop : Statement (.noop) := ⟨rfl, rfl, rfl, rfl⟩

end Sys2Proof.Laws.EncodedLength
end

