-- ==== Sys2Proof/Laws/Step.lean ====
section
/-! SUPPORT. What a step can do, once: it runs the decoded instruction, or takes the fault of its fetch or decode. -/

namespace Sys2Proof.Machine

theorem fetchInstr_running (s : State) (h : s.run = .running) :
    fetchInstr s = match decode (s.mem.window s.ip 4) with
      | .ok (i, _) => .ok i
      | .error r => .error (.next (rejectFault r (s.mem.window s.ip 4) s)) := by
  cases s; cases h; rfl

theorem step_of_decode (s : State) (i : Instr) (rest : List Word) (h : s.run = .running)
    (hd : decode (s.mem.window s.ip 4) = .ok (i, rest)) : step s = exec i s := by
  simp [step, fetchInstr_running s h, hd]

theorem step_of_reject (s : State) (r : DecodeReject) (h : s.run = .running)
    (hd : decode (s.mem.window s.ip 4) = .error r) : step s = .next (rejectFault r (s.mem.window s.ip 4) s) := by
  simp [step, fetchInstr_running s h, hd]

/-- A step to a next state starts Running and ends in the decoded instruction's next state or in a decode fault. -/
theorem step_next {s t : State} (h : step s = .next t) :
    s.run = .running ∧
      ((∃ i rest, decode (s.mem.window s.ip 4) = .ok (i, rest) ∧ exec i s = .next t) ∨
        ∃ r, decode (s.mem.window s.ip 4) = .error r ∧ t = rejectFault r (s.mem.window s.ip 4) s) := by
  cases hr : s.run with
  | running =>
    refine ⟨rfl, ?_⟩
    cases hd : decode (s.mem.window s.ip 4) with
    | ok p => exact .inl ⟨p.1, p.2, rfl, by rw [← step_of_decode s p.1 p.2 hr hd]; exact h⟩
    | error r =>
      rw [step_of_reject s r hr hd] at h
      injection h with h
      exact .inr ⟨r, rfl, h.symm⟩
  | halted => simp [step, fetchInstr, hr] at h
  | faulted r => simp [step, fetchInstr, hr] at h

/-- The opcode and operand Words of the instruction decoded at `ip` stand in memory from `ip` on. -/
theorem words_at_ip {s : State} {i : Instr} {rest : List Word} (h : decode (s.mem.window s.ip 4) = .ok (i, rest)) :
    ∃ (op : Word) (os : List Word) (sh : List Token), s.mem.read s.ip = some op ∧ op.toNat = i.opcode ∧
      i.opcodeWord = op ∧ i.operands = os.map Operand.ofWord ∧ shapeOf i.opcode = some sh ∧ sh.length = os.length ∧
      i.wf = (List.zipWith tokenTakes sh os).all id ∧
      ∀ k (w : Word), os[k]? = some w → s.mem.read (s.ip + 1 + k) = some w := by
  obtain ⟨op, os, sh, hws, hop, hos, hsh, hlen, hwf⟩ := decode_eq_ok _ _ _ h
  refine ⟨op, os, sh, ?_, hop, ?_, hos, hsh, hlen, hwf, fun k w hk => ?_⟩
  · rw [← Memory.window_head _ _ 3, hws]; rfl
  · apply BitVec.eq_of_toNat_eq
    rw [Instr.opcodeWord, BitVec.toNat_ofNat, ← hop]
    exact Nat.mod_eq_of_lt op.isLt
  · have hlt : k < os.length := (List.getElem?_eq_some_iff.1 hk).1
    have := s.mem.window_getElem s.ip 4 (k + 1) w
      (by rw [hws, List.getElem?_cons_succ, List.getElem?_append_left hlt]; exact hk)
    rwa [show s.ip + (k + 1) = s.ip + 1 + k by omega] at this

/-- Which parts of the state a completed instruction can change, and how. -/
structure Changes (i : Instr) (s t : State) : Prop where
  mem : t.mem = s.mem ∨ ∃ a b va vb, i = .wmem a b ∧ valOf s a = .ok va ∧ valOf s b = .ok vb ∧
    va.toNat < s.mem.size ∧ t.mem = s.mem.write va.toNat (wordOfVal vb)
  regs : t.regs = s.regs ∨ ∃ r v o, regOf o = .ok r ∧ t.regs = s.regs.set r v ∧ i.operands.head? = some o ∧
    i.opcode ∈ [1, 3, 4, 5, 9, 10, 11, 12, 13, 14, 15, 20]
  stack : t.stack = s.stack ∨ (i.opcode ∈ [2, 17] ∧ ∃ v, t.stack = v :: s.stack ∧ s.hasRoom = true) ∨
    (i.opcode ∈ [3, 18] ∧ ∃ v, s.stack = v :: t.stack)
  output : t.output = s.output ∨ (i.opcode = 19 ∧ ∃ v, t.output = s.output ++ [v])
  input : t.input = s.input ∨ (i.opcode = 20 ∧ ∃ c, s.input = c :: t.input)
  ip : t.ip = s.ip + i.length ∨ (i.opcode ∈ [6, 7, 8, 17, 18] ∧ t.ip ≤ 32767)
  run : t.run = if i = .halt then .halted else s.run
  stackMax : t.stackMax = s.stackMax
  inputEnd : t.inputEnd = s.inputEnd

theorem changes_setReg {i : Instr} {s : State} {a : Operand} {r : RegIdx} {v : Val} (ha : regOf a = .ok r)
    (ho : i.operands.head? = some a) (hi : i.opcode ∈ [1, 4, 5, 9, 10, 11, 12, 13, 14, 15]) (hh : i ≠ .halt) :
    Changes i s ((s.advance i.length).setReg r v) where
  mem := .inl rfl
  regs := .inr ⟨r, v, a, ha, rfl, ho, by simp only [List.mem_cons, List.not_mem_nil, or_false] at hi ⊢; omega⟩
  stack := .inl rfl
  output := .inl rfl
  input := .inl rfl
  ip := .inl rfl
  run := by rw [if_neg hh]; rfl
  stackMax := rfl
  inputEnd := rfl

theorem val_le (v : Val) : v.toNat ≤ 32767 := Nat.le_of_lt_succ v.isLt

/-- A completed instruction changes only what `Changes` says. -/
theorem Done.changes {i : Instr} {s t : State} (h : Done i s t) : Changes i s t := by
  cases i with
  | halt => cases h; exact ⟨.inl rfl, .inl rfl, .inl rfl, .inl rfl, .inl rfl, .inl rfl, rfl, rfl, rfl⟩
  | noop => cases h; exact ⟨.inl rfl, .inl rfl, .inl rfl, .inl rfl, .inl rfl, .inl rfl, rfl, rfl, rfl⟩
  | set a b => obtain ⟨r, _, hr, _, rfl⟩ := h; exact changes_setReg hr rfl (by simp [Instr.opcode]) nofun
  | eq a b c => obtain ⟨r, _, _, hr, _, _, rfl⟩ := h; exact changes_setReg hr rfl (by simp [Instr.opcode]) nofun
  | gt a b c => obtain ⟨r, _, _, hr, _, _, rfl⟩ := h; exact changes_setReg hr rfl (by simp [Instr.opcode]) nofun
  | add a b c => obtain ⟨r, _, _, hr, _, _, rfl⟩ := h; exact changes_setReg hr rfl (by simp [Instr.opcode]) nofun
  | mult a b c => obtain ⟨r, _, _, hr, _, _, rfl⟩ := h; exact changes_setReg hr rfl (by simp [Instr.opcode]) nofun
  | mod a b c => obtain ⟨r, _, _, hr, _, _, _, rfl⟩ := h; exact changes_setReg hr rfl (by simp [Instr.opcode]) nofun
  | and a b c => obtain ⟨r, _, _, hr, _, _, rfl⟩ := h; exact changes_setReg hr rfl (by simp [Instr.opcode]) nofun
  | or a b c => obtain ⟨r, _, _, hr, _, _, rfl⟩ := h; exact changes_setReg hr rfl (by simp [Instr.opcode]) nofun
  | not a b => obtain ⟨r, _, hr, _, rfl⟩ := h; exact changes_setReg hr rfl (by simp [Instr.opcode]) nofun
  | rmem a b => obtain ⟨r, _, _, hr, _, _, _, rfl⟩ := h; exact changes_setReg hr rfl (by simp [Instr.opcode]) nofun
  | push a =>
    obtain ⟨v, _, hr, rfl⟩ := h
    exact ⟨.inl rfl, .inl rfl, .inr (.inl ⟨by simp [Instr.opcode], v, rfl, hr⟩), .inl rfl, .inl rfl, .inl rfl, rfl, rfl, rfl⟩
  | pop a =>
    obtain ⟨r, v, rest, hr, hs, rfl⟩ := h
    exact ⟨.inl rfl, .inr ⟨r, _, a, hr, rfl, rfl, by simp [Instr.opcode]⟩, .inr (.inr ⟨by simp [Instr.opcode], v, hs⟩),
      .inl rfl, .inl rfl, .inl rfl, rfl, rfl, rfl⟩
  | jmp a =>
    obtain ⟨v, _, rfl⟩ := h
    exact ⟨.inl rfl, .inl rfl, .inl rfl, .inl rfl, .inl rfl, .inr ⟨by simp [Instr.opcode], val_le v⟩, rfl, rfl, rfl⟩
  | jnz a b =>
    obtain ⟨v, u, _, _, rfl⟩ := h
    refine ⟨.inl rfl, .inl rfl, .inl rfl, .inl rfl, .inl rfl, ?_, rfl, rfl, rfl⟩
    rw [State.ip_setIp]
    split
    · exact .inr ⟨by simp [Instr.opcode], val_le u⟩
    · exact .inl rfl
  | jez a b =>
    obtain ⟨v, u, _, _, rfl⟩ := h
    refine ⟨.inl rfl, .inl rfl, .inl rfl, .inl rfl, .inl rfl, ?_, rfl, rfl, rfl⟩
    rw [State.ip_setIp]
    split
    · exact .inr ⟨by simp [Instr.opcode], val_le u⟩
    · exact .inl rfl
  | wmem a b =>
    obtain ⟨va, vb, ha, hb, hlt, rfl⟩ := h
    exact ⟨.inr ⟨a, b, va, vb, rfl, ha, hb, hlt, rfl⟩, .inl rfl, .inl rfl, .inl rfl, .inl rfl, .inl rfl, rfl, rfl, rfl⟩
  | call a =>
    obtain ⟨v, _, _, hr, rfl⟩ := h
    exact ⟨.inl rfl, .inl rfl, .inr (.inl ⟨by simp [Instr.opcode], _, rfl, hr⟩), .inl rfl, .inl rfl,
      .inr ⟨by simp [Instr.opcode], val_le v⟩, rfl, rfl, rfl⟩
  | ret =>
    obtain ⟨v, rest, hs, rfl⟩ := h
    exact ⟨.inl rfl, .inl rfl, .inr (.inr ⟨by simp [Instr.opcode], v, hs⟩), .inl rfl, .inl rfl,
      .inr ⟨by simp [Instr.opcode], val_le v⟩, rfl, rfl, rfl⟩
  | out a =>
    obtain ⟨v, _, rfl⟩ := h
    exact ⟨.inl rfl, .inl rfl, .inl rfl, .inr ⟨rfl, v, rfl⟩, .inl rfl, .inl rfl, rfl, rfl, rfl⟩
  | inp a =>
    obtain ⟨r, c, rest, hr, hs, rfl⟩ := h
    exact ⟨.inl rfl, .inr ⟨r, _, a, hr, rfl, rfl, by simp [Instr.opcode]⟩, .inl rfl, .inl rfl, .inr ⟨rfl, c, hs⟩,
      .inl rfl, rfl, rfl, rfl⟩

/-- A decode fault is a fault of the instruction at `ip`, with the opcode read there. -/
theorem rejectFault_eq (r : DecodeReject) (s : State) :
    ∃ kind info, rejectFault r (s.mem.window s.ip 4) s = faultedBy s kind (s.mem.read s.ip) info := by
  cases r <;> exact ⟨_, _, by rw [rejectFault, takeFault_at_ip _ _ rfl, Memory.window_head]; rfl⟩

/-- The whole of what a step can do: the instruction whose Words stand at `ip` completes, or a fault at `ip` is taken
and nothing else changes. -/
theorem step_cases {s t : State} (h : step s = .next t) :
    s.run = .running ∧
      ((∃ (i : Instr) (op : Word) (os : List Word) (sh : List Token), Done i s t ∧ s.mem.read s.ip = some op ∧
          op.toNat = i.opcode ∧ i.operands = os.map Operand.ofWord ∧ shapeOf i.opcode = some sh ∧
          sh.length = os.length ∧ ∀ k (w : Word), os[k]? = some w → s.mem.read (s.ip + 1 + k) = some w) ∨
        ∃ kind info, t = faultedBy s kind (s.mem.read s.ip) info) := by
  obtain ⟨hr, ⟨i, rest, hd, he⟩ | ⟨r, -, rfl⟩⟩ := step_next h
  · refine ⟨hr, ?_⟩
    obtain ⟨op, os, sh, hop, hopc, hw, hos, hsh, hlen, -, hk⟩ := words_at_ip hd
    obtain hdn | ⟨kind, info, -, rfl⟩ := exec_next he
    · exact .inl ⟨i, op, os, sh, hdn, hop, hopc, hos, hsh, hlen, hk⟩
    · exact .inr ⟨kind, info, by rw [hop, ← hw]; rfl⟩
  · exact ⟨hr, .inr (rejectFault_eq r s)⟩

end Sys2Proof.Machine
end

