-- ==== Sys2Proof/Tests/Slice0.lean ====
section
/-! SUPPORT. Tests. An expected result is a vector of spec/95_test_vectors.md, named in the comment above it, or is
worked out by hand from the rule named there. -/

namespace Sys2Proof.Tests

open Sys2Proof Sys2Proof.Machine

/-! ### Helpers -/

/-- The reset state with these Words as the whole memory. -/
def start (ws : List Word) : State := State.reset.setMem (memoryOfWords ws)

/-- The next state, if there is one. -/
def nextOf : Host.Outcome State Fault Refusal → Option State
  | .next t => some t
  | .fault _ => none
  | .refused _ => none

/-- The stop by name, if there is one. -/
def stopOf : Host.Outcome State Fault Refusal → Option (Fault ⊕ Refusal)
  | .next _ => none
  | .fault f => some (.inl f)
  | .refused r => some (.inr r)

/-- One fact of the state after one step. -/
def after {α : Type} (s : State) (f : State → α) : Option α := (nextOf (step s)).map f

/-- One step takes this fault and changes nothing else. -/
def faults (s : State) (kind : FaultKind) (opcode : Option Word) (info : Option Nat) : Bool :=
  nextOf (step s) == some (faultedBy s kind opcode info)

def decoded (ws : List Word) : Option (Instr × List Word) :=
  match decode ws with
  | .ok p => some p
  | .error _ => none

def rejected (ws : List Word) : Option DecodeReject :=
  match decode ws with
  | .ok _ => none
  | .error r => some r

/-! ### WellFormed refuses each ill-formed operand (R48, R49) -/

theorem test_wf_refuses_literal_as_destination : (Instr.set (.lit 5) (.lit 5)).wf = false := by decide
theorem test_wf_refuses_invalid_as_destination : (Instr.pop (.invalid 32776)).wf = false := by decide
theorem test_wf_refuses_invalid_as_value : (Instr.push (.invalid 65535)).wf = false := by decide
theorem test_wf_refuses_invalid_second_value : (Instr.jnz (.lit 0) (.invalid 40000)).wf = false := by decide
theorem test_wf_refuses_invalid_third_value : (Instr.mod (.reg 0) (.lit 1) (.invalid 32776)).wf = false := by decide
theorem test_wf_accepts_register_and_literal : (Instr.add (.reg 0) (.reg 7) (.lit 32767)).wf = true := by decide

/-! ### Words written out from the encodings of R46 and R51 -/

theorem test_decode_halt : decoded [0] = some (.halt, []) := by decide
theorem test_decode_set : decoded [1, 0x8000, 0x7FFF] = some (.set (.reg 0) (.lit 32767), []) := by decide
theorem test_decode_push : decoded [2, 0x8007] = some (.push (.reg 7), []) := by decide
theorem test_decode_pop : decoded [3, 0x8001] = some (.pop (.reg 1), []) := by decide
theorem test_decode_eq : decoded [4, 0x8000, 0x8001, 7] = some (.eq (.reg 0) (.reg 1) (.lit 7), []) := by decide
theorem test_decode_gt : decoded [5, 0x8002, 3, 0x8004] = some (.gt (.reg 2) (.lit 3) (.reg 4), []) := by decide
theorem test_decode_jmp : decoded [6, 100] = some (.jmp (.lit 100), []) := by decide
theorem test_decode_jnz : decoded [7, 0x8000, 6] = some (.jnz (.reg 0) (.lit 6), []) := by decide
theorem test_decode_jez : decoded [8, 0x8002, 30] = some (.jez (.reg 2) (.lit 30), []) := by decide
theorem test_decode_add : decoded [9, 0x8000, 0x8000, 48] = some (.add (.reg 0) (.reg 0) (.lit 48), []) := by decide
theorem test_decode_mult : decoded [10, 0x8003, 5, 6] = some (.mult (.reg 3) (.lit 5) (.lit 6), []) := by decide
theorem test_decode_mod : decoded [11, 0x8000, 0x8001, 0x8002] = some (.mod (.reg 0) (.reg 1) (.reg 2), []) := by decide
theorem test_decode_and : decoded [12, 0x8003, 0x8000, 0x8001] = some (.and (.reg 3) (.reg 0) (.reg 1), []) := by decide
theorem test_decode_or : decoded [13, 0x8004, 0x8000, 1] = some (.or (.reg 4) (.reg 0) (.lit 1), []) := by decide
theorem test_decode_not : decoded [14, 0x8005, 0x8004] = some (.not (.reg 5) (.reg 4), []) := by decide
theorem test_decode_rmem : decoded [15, 0x8000, 5] = some (.rmem (.reg 0) (.lit 5), []) := by decide
theorem test_decode_wmem : decoded [16, 5, 0x8000] = some (.wmem (.lit 5) (.reg 0), []) := by decide
theorem test_decode_call : decoded [17, 3, 0] = some (.call (.lit 3), [0]) := by decide
theorem test_decode_ret : decoded [18] = some (.ret, []) := by decide
theorem test_decode_out : decoded [19, 65] = some (.out (.lit 65), []) := by decide
theorem test_decode_in : decoded [20, 0x8006] = some (.inp (.reg 6), []) := by decide
theorem test_decode_noop : decoded [21] = some (.noop, []) := by decide

/-- E-6 to E-9, and D-5: the invalid first operand is met before the missing ones. -/
theorem test_decode_rejects :
    rejected [22] = some (.unknownOpcode 22) ∧ rejected [0x8000] = some (.unknownOpcode 0x8000) ∧
    rejected [0xFFFF, 0] = some (.unknownOpcode 0xFFFF) ∧ rejected [0x0100] = some (.unknownOpcode 0x0100) ∧
    rejected [9, 32776] = some (.invalidOperand 32776) ∧ rejected [9, 0x8000, 1] = some .truncated ∧
    rejected [] = some .truncated := by decide

theorem test_encode_add : encode (.add (.reg 0) (.reg 0) (.lit 48)) = [9, 32768, 32768, 48] := by decide

/-- The table's numbering: operand `a` in bits 31..16, `b` in 47..32, `c` in 63..48; missing bits are 0. -/
theorem test_table_word :
    decodeTableWord 64 0x0030800080000009 = some (.add (.reg 0) (.reg 0) (.lit 48)) ∧
    decodeTableWord 16 19 = some (.out (.lit 0)) ∧ decodeTableWord 16 22 = none := by decide

theorem test_withFetchWord_runs_it :
    after (State.reset.withFetchWord 48 0x000580000001) (fun t => (t.reg 0, t.ip)) = some (5, 3) := by decide

/-! ### Load and fetch -/

/-- L-1, L-6. -/
theorem test_load_low_byte_first :
    wordsOfBytes [0x15, 0x00, 0x00, 0x80] = some [21, 32768] ∧ wordsOfBytes [0x34, 0x12] = some [4660] := by decide

/-- L-5. -/
theorem test_load_odd :
    (nextOf (boot ⟨32768, none, [], .ended⟩ [0])).map State.run =
      some (.faulted ⟨.malformedProgram, none, none, none⟩) := by decide

/-- D-1. -/
theorem test_fetch_empty_memory : faults (start []) .memoryFault none (some 0) = true := by decide
/-- D-3. -/
theorem test_fetch_past_the_end : faults (start [9, 32768, 1]) .memoryFault (some 9) (some 3) = true := by decide
/-- D-5. -/
theorem test_fetch_invalid_before_missing :
    faults (start [9, 32776]) .invalidOperand (some 9) (some 32776) = true := by decide
/-- S9, second step. -/
theorem test_fetch_unknown_opcode :
    faults ((start [21, 99, 19, 65]).setIp 1) .unknownOpcode (some 99) (some 99) = true := by decide

/-! ### One step of each instruction -/

/-- H-1. -/
theorem test_halt : after (start [0]) (fun t => (t.run, t.ip)) = some (.halted, 1) := by decide
/-- D-2, first step. -/
theorem test_noop : nextOf (step (start [21])) = some ((start [21]).setIp 1) := by decide
/-- E-2. -/
theorem test_set : after ((start [1, 32768, 32775]).setReg 7 99) (fun t => (t.reg 0, t.ip)) = some (99, 3) := by decide
/-- E-5. -/
theorem test_set_literal_destination : faults (start [1, 5, 5]) .invalidOperand (some 1) (some 5) = true := by decide
/-- M-4. -/
theorem test_push : after ((start [2, 10]).setStack [7]) (fun t => (t.stack, t.ip)) = some ([10, 7], 2) := by decide
/-- E-4. -/
theorem test_push_invalid : faults (start [2, 65535]) .invalidOperand (some 2) (some 65535) = true := by decide
/-- M-6. -/
theorem test_pop :
    after ((start [3, 32769]).setStack [10, 7]) (fun t => (t.reg 1, t.stack, t.ip)) = some (10, [7], 2) := by decide
/-- D-7. -/
theorem test_pop_invalid_first : faults (start [3, 5]) .invalidOperand (some 3) (some 5) = true := by decide
/-- C-2. -/
theorem test_eq_differs :
    after (((start [4, 32768, 32769, 8]).setReg 1 7).setReg 0 5) (fun t => t.reg 0) = some 0 := by decide
/-- C-3. -/
theorem test_eq_same :
    after ((start [4, 32768, 32768, 32768]).setReg 0 1234) (fun t => (t.reg 0, t.ip)) = some (1, 4) := by decide
/-- C-5. -/
theorem test_gt_strict : after ((start [5, 32768, 3, 3]).setReg 0 9) (fun t => t.reg 0) = some 0 := by decide
/-- C-6. -/
theorem test_gt_unsigned : after (start [5, 32768, 32767, 0]) (fun t => t.reg 0) = some 1 := by decide
/-- J-2, first step. -/
theorem test_jmp_unchecked : after (start [6, 100]) (fun t => (t.ip, t.run)) = some (100, .running) := by decide
/-- J-4. -/
theorem test_jmp_computed : after ((start [6, 32768, 0]).setReg 0 2) (fun t => t.ip) = some 2 := by decide
/-- S6. -/
theorem test_jnz_not_taken : after (start [7, 0, 100]) (fun t => t.ip) = some 3 := by decide
/-- D-11. -/
theorem test_jnz_resolves_target :
    faults (start [7, 0, 40000]) .invalidOperand (some 7) (some 40000) = true := by decide
/-- J-8, first step. -/
theorem test_jez_taken : after (start [8, 0, 4, 99, 0]) (fun t => t.ip) = some 4 := by decide
/-- J-9, first step. -/
theorem test_jez_not_taken : after (start [8, 1, 4, 0, 99]) (fun t => t.ip) = some 3 := by decide
/-- J-10, first step. -/
theorem test_call : after (start [17, 3, 0, 18]) (fun t => (t.stack, t.ip)) = some ([2], 3) := by decide
/-- J-15, second step. -/
theorem test_call_high_return_address :
    faults { State.reset with ip := 32766, mem := { size := 32768, cells := [(32766, 17)] } } .nonCanonicalValue (some 17)
      (some 32768) = true := by decide
/-- J-12. -/
theorem test_ret_empty : faults (start [18]) .stackUnderflow (some 18) none = true := by decide
/-- J-13, second step. -/
theorem test_ret_takes_a_pushed_value :
    after (((start [2, 4, 18, 99, 0]).setIp 2).setStack [4]) (fun t => (t.ip, t.stack)) = some (4, []) := by decide
/-- A-2. -/
theorem test_add_wraps : after (start [9, 32768, 32767, 32767]) (fun t => t.reg 0) = some 32766 := by decide
/-- D-13. -/
theorem test_add_reads_before_writing :
    after ((start [9, 32768, 32768, 32768, 0]).setReg 0 7) (fun t => (t.reg 0, t.ip)) = some (14, 4) := by decide
/-- A-9. -/
theorem test_mult_wraps : after (start [10, 32768, 32767, 32767]) (fun t => t.reg 0) = some 1 := by decide
/-- A-12. -/
theorem test_mult_keeps_the_low_bits : after (start [10, 32768, 12345, 6789]) (fun t => t.reg 0) = some 22429 := by decide
/-- A-16. -/
theorem test_mod : after (start [11, 32768, 5, 17]) (fun t => (t.reg 0, t.ip)) = some (5, 4) := by decide
/-- A-20. -/
theorem test_mod_by_zero :
    faults ((start [11, 32768, 7, 0]).setReg 0 3) .divideByZero (some 11) none = true := by decide
/-- B-2. -/
theorem test_and : after (start [12, 32768, 32527, 4080]) (fun t => t.reg 0) = some 3840 := by decide
/-- B-9. -/
theorem test_or :
    after (((start [13, 32772, 32768, 32769]).setReg 0 20).setReg 1 10) (fun t => t.reg 4) = some 30 := by decide
/-- B-10. -/
theorem test_not_is_15_bits : after (start [14, 32768, 0]) (fun t => t.reg 0) = some 32767 := by decide
/-- B-13. -/
theorem test_not_is_no_negation : after (start [14, 32768, 1]) (fun t => (t.reg 0, t.ip)) = some (32766, 3) := by decide
/-- W-1. -/
theorem test_rmem : after (start [15, 32768, 5, 0, 0, 65]) (fun t => (t.reg 0, t.ip)) = some (65, 3) := by decide
/-- W-5. -/
theorem test_rmem_high_cell :
    faults (start [15, 32768, 3, 40000]) .nonCanonicalValue (some 15) (some 40000) = true := by decide
/-- W-11, first step. -/
theorem test_wmem_own_opcode :
    after (start [16, 0, 21, 0]) (fun t => (t.mem == memoryOfWords [21, 0, 21, 0], t.ip)) = some (true, 3) := by decide
/-- W-9. -/
theorem test_wmem_no_growth : faults (start [16, 3, 1]) .memoryFault (some 16) (some 3) = true := by decide
/-- O-5. -/
theorem test_out : after (start [19, 32767]) (fun t => (t.output, t.ip)) = some ([32767], 2) := by decide
/-- I-1. -/
theorem test_in :
    after ((start [20, 32768]).setInput [65, 66]) (fun t => (t.reg 0, t.input, t.ip)) = some (65, [66], 2) := by decide
/-- I-2. -/
theorem test_in_ended : faults (start [20, 32768]) .inputExhausted (some 20) none = true := by decide

/-! ### Stops and ends -/

/-- R18: no step from Halted. -/
theorem test_halted_has_no_step : stopOf (step ((start [21]).setRun .halted)) = some (.inl .runHalted) := by decide
/-- R94, D16. -/
theorem test_in_waits :
    stopOf (step { start [20, 32768] with inputEnd := .pending }) = some (.inl .awaitingInput) := by decide
/-- R16, D6. -/
theorem test_push_beyond_bound :
    stopOf (step { start [2, 1] with stackMax := some 1, stack := [9] }) = some (.inr .stackFull) := by decide

/-! ### Witnesses: the hypotheses of each statement are met together -/

/-- The operands of a statement of shape R,V,V: both ends of the register range and of the literal range, a register as
value, and for each token a Word it refuses at the edge of its range. -/
def meetsRVV (s : State) : Prop :=
  (registerOfWord 32768 = some 0 ∧ valueOfWord s 0 = some 0 ∧ valueOfWord s 32767 = some 32767) ∧
  (registerOfWord 32775 = some 7 ∧ valueOfWord s 32768 = some (s.reg 0).toNat ∧ valueOfWord s 32775 = some (s.reg 7).toNat) ∧
  firstRefused [(.R, 32767), (.V, 32776), (.V, 0)] = some 32767 ∧
  firstRefused [(.R, 32775), (.V, 32776), (.V, 32776)] = some 32776 ∧
  firstRefused [(.R, 32768), (.V, 32775), (.V, 65535)] = some 65535

def meetsRV (s : State) : Prop :=
  (registerOfWord 32768 = some 0 ∧ valueOfWord s 32767 = some 32767) ∧
  (registerOfWord 32775 = some 7 ∧ valueOfWord s 32775 = some (s.reg 7).toNat) ∧
  firstRefused [(.R, 32776), (.V, 0)] = some 32776 ∧ firstRefused [(.R, 32775), (.V, 32776)] = some 32776

def meetsVV (s : State) : Prop :=
  (valueOfWord s 0 = some 0 ∧ valueOfWord s 32767 = some 32767 ∧ valueOfWord s 32775 = some (s.reg 7).toNat) ∧
  firstRefused [(.V, 32776), (.V, 0)] = some 32776 ∧ firstRefused [(.V, 32775), (.V, 65535)] = some 65535

theorem meetsRVV_reset : meetsRVV State.reset := by unfold meetsRVV; decide
theorem meetsRV_reset : meetsRV State.reset := by unfold meetsRV; decide
theorem meetsVV_reset : meetsVV State.reset := by unfold meetsVV; decide

theorem witness_EqWritesOneWhenEqual : meetsRVV State.reset := meetsRVV_reset
theorem witness_GtWritesOneWhenGreater : meetsRVV State.reset := meetsRVV_reset
theorem witness_AddWritesTheSumModulo32768 : meetsRVV State.reset := meetsRVV_reset
theorem witness_MultWritesTheProductModulo32768 : meetsRVV State.reset := meetsRVV_reset
theorem witness_AndWritesTheBitwiseAnd : meetsRVV State.reset := meetsRVV_reset
theorem witness_OrWritesTheBitwiseOr : meetsRVV State.reset := meetsRVV_reset
theorem witness_LogicWorksBitByBit : meetsRVV State.reset := meetsRVV_reset
theorem witness_ModWritesTheRemainder : meetsRVV State.reset ∧ (32767 : Nat) ≠ 0 := ⟨meetsRVV_reset, by decide⟩
theorem witness_SetCopiesTheValue : meetsRV State.reset := meetsRV_reset
theorem witness_NotWritesTheComplement : meetsRV State.reset := meetsRV_reset
theorem witness_JnzGoesWhenNotZero : meetsVV State.reset := meetsVV_reset
theorem witness_JezGoesWhenZero : meetsVV State.reset := meetsVV_reset

theorem witness_JmpGoesToTheValue :
    valueOfWord State.reset 32767 = some 32767 ∧ firstRefused [(.V, 32776)] = some 32776 := by decide

theorem witness_OutAppendsTheCode :
    valueOfWord State.reset 32767 = some 32767 ∧ firstRefused [(.V, 32776)] = some 32776 := by decide

/-- A state whose stack holds `n` zeros within the bound `m`. -/
def stacked (n : Nat) (m : Option Nat) : State := { State.reset with stack := List.replicate n 0, stackMax := m }

/-- The bound is met one short of it and at it, and an unbounded stack always has room. -/
theorem stacked_room : StackHasRoom (stacked 1 (some 2)) ∧ ¬ StackHasRoom (stacked 2 (some 2)) ∧ StackHasRoom (stacked 2 none) := by
  simp [StackHasRoom, stacked]

theorem witness_PushAddsTheValueOnTop :
    (valueOfWord (stacked 1 (some 2)) 32767 = some 32767 ∧ StackHasRoom (stacked 1 (some 2))) ∧
    (valueOfWord (stacked 2 (some 2)) 32768 = some 0 ∧ ¬ StackHasRoom (stacked 2 (some 2))) ∧
    firstRefused [(.V, 32776)] = some 32776 :=
  ⟨⟨by decide, stacked_room.1⟩, ⟨by decide, stacked_room.2.1⟩, by decide⟩

theorem witness_PopTakesTheTop :
    (registerOfWord 32775 = some 7 ∧ (stacked 1 none).stack = 0 :: []) ∧
    (registerOfWord 32768 = some 0 ∧ State.reset.stack = []) ∧
    firstRefused [(.R, 32767)] = some 32767 ∧ firstRefused [(.R, 32776)] = some 32776 := by decide

theorem witness_PopAfterPushGivesTheValue :
    valueOfWord (stacked 1 (some 2)) 32767 = some 32767 ∧ registerOfWord 32768 = some 0 ∧ StackHasRoom (stacked 1 (some 2)) :=
  ⟨by decide, by decide, stacked_room.1⟩

/-- Each clause at the edge of its range: `ip + 2` = 32767 with room and without, and `ip + 2` = 32768 with room and, where
the guard and the bound meet, without (log 6). -/
theorem witness_CallPushesTheReturnAddress :
    let roomy := (stacked 1 (some 2)).setIp 32765
    let full := (stacked 2 (some 2)).setIp 32765
    (valueOfWord roomy 0 = some 0 ∧ roomy.ip + 2 ≤ 32767 ∧ StackHasRoom roomy) ∧
    (valueOfWord full 0 = some 0 ∧ full.ip + 2 ≤ 32767 ∧ ¬ StackHasRoom full) ∧
    (valueOfWord (roomy.setIp 32766) 32775 = some 0 ∧ 32767 < (roomy.setIp 32766).ip + 2 ∧
      StackHasRoom (roomy.setIp 32766)) ∧
    (valueOfWord (full.setIp 32766) 32775 = some 0 ∧ 32767 < (full.setIp 32766).ip + 2 ∧
      ¬ StackHasRoom (full.setIp 32766)) ∧
    firstRefused [(.V, 32776)] = some 32776 :=
  ⟨⟨by decide, by decide, stacked_room.1⟩, ⟨by decide, by decide, stacked_room.2.1⟩,
    ⟨by decide, by decide, stacked_room.1⟩, ⟨by decide, by decide, stacked_room.2.1⟩, by decide⟩

theorem witness_RetGoesToTheTop : (stacked 1 none).stack = 0 :: [] ∧ State.reset.stack = [] := by decide

theorem witness_RetAfterCallResumes :
    valueOfWord ((stacked 1 (some 2)).setIp 32765) 32767 = some 32767 ∧
      ((stacked 1 (some 2)).setIp 32765).ip + 2 ≤ 32767 ∧ StackHasRoom ((stacked 1 (some 2)).setIp 32765) :=
  ⟨by decide, by decide, stacked_room.1⟩

/-- The last cell below `L`, a cell of 32767 and one of 32768, and the address `L`. -/
theorem witness_RmemLoadsTheCell :
    let s := start [0, 32767, 32768]
    (registerOfWord 32768 = some 0 ∧ valueOfWord s 1 = some 1 ∧ s.mem.read 1 = some 32767) ∧
    (registerOfWord 32775 = some 7 ∧ valueOfWord s 2 = some 2 ∧ s.mem.read 2 = some 32768) ∧
    (valueOfWord s 3 = some 3 ∧ s.mem.size ≤ 3) ∧
    firstRefused [(.R, 32767), (.V, 0)] = some 32767 ∧ firstRefused [(.R, 32768), (.V, 32776)] = some 32776 := by decide

theorem witness_WmemStoresTheValue :
    let s := start [0, 0, 0]
    (valueOfWord s 2 = some 2 ∧ valueOfWord s 32767 = some 32767 ∧ 2 < s.mem.size) ∧
    (valueOfWord s 3 = some 3 ∧ s.mem.size ≤ 3) ∧
    firstRefused [(.V, 32776), (.V, 0)] = some 32776 ∧ firstRefused [(.V, 0), (.V, 32776)] = some 32776 := by decide

theorem witness_InTakesOneByte :
    (registerOfWord 32775 = some 7 ∧ (State.reset.setInput [255]).input = 255 :: []) ∧
    (registerOfWord 32768 = some 0 ∧ State.reset.input = [] ∧ State.reset.inputEnd = .ended) ∧
    (({ State.reset with inputEnd := .pending } : State).input = [] ∧
      ({ State.reset with inputEnd := .pending } : State).inputEnd = .pending) ∧
    firstRefused [(.R, 32767)] = some 32767 ∧ firstRefused [(.R, 32776)] = some 32776 := by decide

theorem witness_InWaitsForTheEnvironment :
    registerOfWord 32768 = some 0 ∧ ({ State.reset with inputEnd := .pending } : State).input = [] ∧
      ({ State.reset with inputEnd := .pending } : State).inputEnd = .pending := by decide

theorem witness_DecodeOfEncodeIsTheInstruction : (Instr.wmem (.lit 32767) (.reg 7)).wf = true := by decide

theorem witness_EncodeOfDecodeIsTheWords : decode [3, 40000, 21] = .ok (.pop (.invalid 40000), [21]) := rfl

/-- Opcodes 21 and 22, the last known and the first unknown. -/
theorem witness_OpcodeWordIsComparedWhole :
    decode [21, 5] = .ok (.noop, [5]) ∧ (21 : Word).toNat ≤ 21 ∧ 3 ≤ ([0, 0, 0] : List Word).length ∧
    22 ≤ (22 : Word).toNat ∧ (start [22]).run = .running ∧ (start [22]).mem.read (start [22]).ip = some 22 :=
  ⟨rfl, by decide⟩

theorem witness_OperandWordsFallInThreeClasses :
    (32767 : Word).toNat ≤ 32767 ∧ (32768 ≤ (32768 : Word).toNat ∧ (32775 : Word).toNat ≤ 32775) ∧
    32776 ≤ (32776 : Word).toNat := by decide

theorem witness_ResolverGivesValueOrRegister :
    (valueOfWord State.reset 32767 = some 32767 ∧ valueOfWord State.reset 32775 = some 0) ∧
    valueOfWord State.reset 32776 = none ∧ (registerOfWord 32768 = some 0 ∧ registerOfWord 32775 = some 7) ∧
    registerOfWord 32767 = none ∧ registerOfWord 32776 = none := by decide

theorem witness_LengthFollowsFromTheOpcode : decode [19, 65, 0] = .ok (.out (.lit 65), [0]) := rfl

theorem witness_StepRunsTheDecodedInstruction :
    (start [14, 32773, 32772]).run = .running ∧ (Instr.not (.reg 5) (.reg 4)).wf = true ∧
    ∀ k, k < (encode (.not (.reg 5) (.reg 4))).length →
      (start [14, 32773, 32772]).mem.read ((start [14, 32773, 32772]).ip + k) = (encode (.not (.reg 5) (.reg 4)))[k]? := by
  decide

/-- A whole instruction, and each of the three faults of the loop. -/
theorem witness_StepAgreesWithTheFetchLoop :
    (start [1, 32768, 5]).run = .running ∧ fetchLoop (start [1, 32768, 5]) = .ok [1, 32768, 5] ∧
    fetchLoop (start [1, 32768]) = .error (.raise .memoryFault (some 2)) ∧
    fetchLoop (start [1, 5]) = .error (.raise .invalidOperand (some 5)) ∧
    fetchLoop (start [22]) = .error (.raise .unknownOpcode (some 22)) := ⟨rfl, rfl, rfl, rfl, rfl⟩

theorem witness_OpcodeFetchPastTheEndFaults :
    ((start [21]).setIp 1).run = .running ∧ ((start [21]).setIp 1).mem.size ≤ ((start [21]).setIp 1).ip := by decide

theorem witness_StepsAreTakenOnlyWhileRunning : (nextOf (step (start [21]))).isSome = true := by decide

theorem witness_HaltedIsReachedOnlyByOpcodeZero : after (start [0]) State.run = some .halted := by decide

theorem witness_FaultsArePrecise :
    after (start [22]) State.run = some (.faulted ⟨.unknownOpcode, some 0, some 22, some 22⟩) := by decide

theorem witness_FaultKindsByOpcode :
    after (start [11, 32768, 7, 0]) State.run = some (.faulted ⟨.divideByZero, some 0, some 11, none⟩) ∧
    after (start []) State.run = some (.faulted ⟨.memoryFault, some 0, none, some 0⟩) := by decide

theorem witness_EveryStepKeepsTheStateLegal :
    Inv (start [16, 0, 21, 0]) ∧ (nextOf (step (start [16, 0, 21, 0]))).isSome = true := by decide

theorem witness_BootedStateIsLegal :
    (nextOf (boot ⟨32768, none, [], .ended⟩ [0x15, 0x00, 0x00, 0x80])).isSome = true := by decide

theorem witness_MemoryChangesOnlyByWmem :
    after (start [16, 0, 21]) (fun t => t.mem.read 0) = some (some 21) ∧ (start [16, 0, 21]).mem.read 0 ≠ some 21 := by
  decide

theorem witness_MemorySizeNeverChanges : (nextOf (step (start [16, 0, 21]))).isSome = true := by decide

theorem witness_HighCellsComeOnlyFromTheImage :
    after (start [21, 32768]) (fun t => t.mem.read 1) = some (some 32768) ∧ 32768 ≤ (32768 : Word).toNat := by decide

theorem witness_RegistersChangeOnlyByTheTwelve :
    after (start [1, 32775, 5]) (fun t => t.reg 7) = some 5 ∧ (start [1, 32775, 5]).reg 7 ≠ 5 := by decide

theorem witness_StackChangesOnlyByTheFour : after (start [2, 5]) State.stack = some [5] := by decide

theorem witness_StreamsMoveOnlyByOutAndIn : after (start [19, 5]) State.output = some [5] := by decide

theorem witness_OutputIsNeverRead : (nextOf (step (start [19, 5]))).isSome = true := by decide

theorem witness_InputIsReadOnlyByIn :
    (nextOf (step (start [19, 5]))).isSome = true ∧ (start [19, 5]).mem.read (start [19, 5]).ip ≠ some 20 := by decide

theorem witness_SequentialSuccessor :
    after (start [2, 5]) (fun t => (t.run, t.ip)) = some (.running, 2) ∧ (start [2, 5]).mem.read 0 = some 2 ∧
    shapeOf 2 = some [.V] ∧ 2 ∉ [6, 7, 8, 17, 18] := by decide

/-- P4, first step; and the same with the first unknown opcode. -/
theorem witness_StoreIsSeenByTheNextFetch :
    (after (start [16, 3, 21, 0]) (fun t => (t.run, t.ip)) = some (.running, 3) ∧
      valueOfWord (start [16, 3, 21, 0]) 3 = some 3 ∧ valueOfWord (start [16, 3, 21, 0]) 21 = some 21) ∧
    (after (start [16, 3, 22, 0]) (fun t => (t.run, t.ip)) = some (.running, 3) ∧
      valueOfWord (start [16, 3, 22, 0]) 22 = some 22) := by decide

theorem witness_MemoriesThatReadAlikeAreEqual :
    (memoryOfWords [0, 5]).wf = true ∧ ({ size := 2, cells := [(1, 5)] } : Memory).wf = true ∧
    (memoryOfWords [0, 5]).size = 2 ∧ ∀ a, (memoryOfWords [0, 5]).read a = ({ size := 2, cells := [(1, 5)] } : Memory).read a :=
  ⟨by decide, by decide, by decide, fun _ => rfl⟩

theorem witness_LoadIsLittleEndian :
    ([1, 2] : List Byte).length % 2 = 0 ∧ ([1, 2] : List Byte).length / 2 ≤ 1 ∧ 0 < ([1, 2] : List Byte).length / 2 := by
  decide

theorem witness_OddImageIsMalformed : ([1] : List Byte).length % 2 = 1 ∧ ([1] : List Byte).length / 2 < 1 := by decide

theorem witness_LongImageIsRefused :
    (2 * 1 < ([1, 2, 3, 4] : List Byte).length ∧ ([1, 2, 3, 4] : List Byte).length % 2 = 0) ∧
    2 * 1 < ([1, 2, 3] : List Byte).length ∧ ([1, 2, 3] : List Byte).length % 2 = 1 := by decide

theorem witness_ResetValues :
    ([1, 2] : List Byte).length ≤ 2 * 1 ∧ ([1, 2] : List Byte).length % 2 = 0 ∧
    ([1, 2] : List Byte)[2 * 0]? = some 1 ∧ ([1, 2] : List Byte)[2 * 0 + 1]? = some 2 := by decide

end Sys2Proof.Tests
end

section
/-! # The state: what a step keeps, what it changes, and what it does not read (spec/10_state.md) -/

namespace Sys2Proof.Machine

/-! ### From the instruction to the Words at `ip` -/

/-- A Word is known by its number. -/
theorem read_eq_some_of_toNat {s : State} {op : Word} {n : Nat} (h : s.mem.read s.ip = some op) (hn : op.toNat = n) :
    s.mem.read s.ip = some (BitVec.ofNat 16 n) := by
  rw [h, ← hn, BitVec.ofNat_toNat, BitVec.setWidth_eq]

theorem eq_halt_of_opcode {i : Instr} (h : i.opcode = 0) : i = .halt := by
  cases i with
  | halt => rfl
  | _ => exact absurd h (by simp [Instr.opcode])

/-- Only a register-reference Word is classified as that register (R47). -/
theorem toNat_of_ofWord_reg {w : Word} {r : RegIdx} (h : Operand.ofWord w = .reg r) : w.toNat = 32768 + r.val := by
  rw [← Operand.toWord_ofWord w, h, Operand.toWord_reg_toNat]

/-- An instruction all of whose Words were read ends within memory. -/
theorem ip_add_length_le_size {s : State} {i : Instr} {op : Word} {os : List Word}
    (hop : s.mem.read s.ip = some op) (hos : i.operands = os.map Operand.ofWord)
    (hread : ∀ k (w : Word), os[k]? = some w → s.mem.read (s.ip + 1 + k) = some w) :
    s.ip + i.length ≤ s.mem.size := by
  have hlen : i.length = os.length + 1 := by rw [Instr.length, hos, List.length_map]
  rcases Nat.eq_zero_or_pos os.length with h0 | hpos
  · have := s.mem.lt_size_of_read _ _ hop
    omega
  · have hlast := hread (os.length - 1) os[os.length - 1] (List.getElem?_eq_getElem (by omega))
    have := s.mem.lt_size_of_read _ _ hlast
    omega

/-! ### The invariant -/

theorem Changes.mem_size {i : Instr} {s t : State} (h : Changes i s t) : t.mem.size = s.mem.size := by
  obtain hm | ⟨_, _, _, _, _, _, _, _, hm⟩ := h.mem <;> rw [hm]
  rfl

theorem Changes.mem_wf {i : Instr} {s t : State} (h : Changes i s t) (hwf : s.mem.wf = true) : t.mem.wf = true := by
  obtain hm | ⟨_, _, va, _, _, _, _, hlt, hm⟩ := h.mem <;> rw [hm]
  · exact hwf
  · exact s.mem.wf_write _ _ hlt hwf

theorem depthOk_iff (s : State) : s.depthOk = true ↔ ∀ n, s.stackMax = some n → s.stack.length ≤ n := by
  cases h : s.stackMax <;> simp [State.depthOk, h]

theorem hasRoom_iff (s : State) : s.hasRoom = true ↔ StackHasRoom s := by
  cases h : s.stackMax <;> simp [State.hasRoom, StackHasRoom, h]

/-- Only a push makes the stack deeper, and a push needs room. -/
theorem Changes.depthOk {i : Instr} {s t : State} (h : Changes i s t) (hd : s.depthOk = true) : t.depthOk = true := by
  rw [depthOk_iff] at hd ⊢
  rw [h.stackMax]
  intro n hn
  obtain hst | ⟨-, v, hst, hroom⟩ | ⟨-, v, hst⟩ := h.stack
  · rw [hst]; exact hd n hn
  · rw [hst]; exact (hasRoom_iff s).1 hroom n hn
  · have := hd n hn
    rw [hst, List.length_cons] at this
    omega

theorem recordOk_of_not_faulted {s : State} (h : ∀ r, s.run ≠ .faulted r) : s.recordOk = true := by
  cases hr : s.run with
  | faulted r => exact absurd hr (h r)
  | running => simp [State.recordOk, hr]
  | halted => simp [State.recordOk, hr]

theorem Changes.run_ne_faulted {i : Instr} {s t : State} (h : Changes i s t) (hr : s.run = .running)
    (r : FaultRecord) : t.run ≠ .faulted r := by
  rw [h.run, hr]
  split <;> nofun

theorem inv_faultedBy {s : State} (h : Inv s) (kind : FaultKind) (opcode : Option Word) (info : Option Nat) :
    Inv (faultedBy s kind opcode info) := by
  obtain ⟨hwf, hip, hdepth, -⟩ := h
  exact ⟨hwf, hip, hdepth, by simp [State.recordOk, faultedBy]⟩

/-- A completed instruction whose Words all lie in memory keeps the invariant. -/
theorem Changes.inv {i : Instr} {s t : State} (h : Changes i s t) (hr : s.run = .running)
    (hlen : s.ip + i.length ≤ s.mem.size) (hs : Inv s) : Inv t := by
  obtain ⟨hwf, -, hdepth, -⟩ := hs
  refine ⟨h.mem_wf hwf, ?_, h.depthOk hdepth, recordOk_of_not_faulted (h.run_ne_faulted hr)⟩
  rw [h.mem_size]
  obtain hip | ⟨-, hip⟩ := h.ip <;> omega

/-- Settles O15: a completed instruction keeps each part of the invariant, and a fault changes only the run state. -/
theorem everyStepKeepsTheStateLegal : Obligations.EveryStepKeepsTheStateLegal := by
  intro s t hs h
  obtain ⟨hr, ⟨i, op, os, _, hdone, hop, -, hos, -, -, hread⟩ | ⟨kind, info, rfl⟩⟩ := step_cases h
  · exact hdone.changes.inv hr (ip_add_length_le_size hop hos hread) hs
  · exact inv_faultedBy hs _ _ _

/-- Settles O16: the reset memory is canonical, and the other three parts hold of the reset values. -/
theorem resetStateIsLegal : Obligations.ResetStateIsLegal :=
  ⟨reset_mem_wf, Nat.zero_le _, rfl, rfl⟩

/-! ### What only some instructions change -/

theorem step_of_opcode_zero {s : State} (hr : s.run = .running) (hop : s.mem.read s.ip = some 0) :
    step s = .next ((s.advance 1).setRun .halted) := by
  have hd : decode (s.mem.window s.ip 4) = .ok (.halt, s.mem.window (s.ip + 1) 3) := by
    rw [s.mem.window_succ_some _ _ _ hop]; rfl
  rw [step_of_decode s _ _ hr hd]
  rfl

/-- Settles O12: opcode 0 decodes to `halt`, and no other completion and no fault leads to Halted. -/
theorem haltedIsReachedOnlyByOpcodeZero : Obligations.HaltedIsReachedOnlyByOpcodeZero := by
  intro s t h
  obtain ⟨hr, hcase⟩ := step_cases h
  constructor
  · intro ht
    obtain ⟨i, op, _, _, hdone, hop, hopc, -⟩ | ⟨kind, info, rfl⟩ := hcase
    · have hi : i = .halt := by
        by_contra hne
        rw [hdone.changes.run, if_neg hne, hr] at ht
        exact nomatch ht
      exact read_eq_some_of_toNat hop (hopc.trans (congrArg Instr.opcode hi))
    · exact nomatch ht
  · intro hop
    rw [step_of_opcode_zero hr hop] at h
    injection h with h
    rw [← h, State.run_setRun]

/-- Settles O18: of the completions only that of `wmem` touches memory, and a fault does not. -/
theorem memoryChangesOnlyByWmem : Obligations.MemoryChangesOnlyByWmem := by
  intro s t a h hne
  obtain ⟨-, ⟨i, op, _, _, hdone, hop, hopc, -⟩ | ⟨kind, info, rfl⟩⟩ := step_cases h
  · obtain hm | ⟨_, _, _, _, rfl, -⟩ := hdone.changes.mem
    · exact absurd (by rw [hm]) hne
    · exact read_eq_some_of_toNat hop hopc
  · exact absurd rfl hne

/-- Settles O21: the register written is that of the first operand, which the Word after the opcode names. -/
theorem registersChangeOnlyByTheTwelve : Obligations.RegistersChangeOnlyByTheTwelve := by
  intro s t j h hne
  obtain ⟨-, ⟨i, op, os, _, hdone, hop, hopc, hos, -, -, hread⟩ | ⟨kind, info, rfl⟩⟩ := step_cases h
  · obtain hregs | ⟨r, v, o, ho, hregs, hhead, hmem⟩ := hdone.changes.regs
    · exact absurd (s.reg_eq_of_regs_eq t j hregs) hne
    · have hj : j = r := by
        by_contra hjr
        rw [(s.setReg r v).reg_eq_of_regs_eq t j hregs, s.reg_setReg_ne r j v hjr] at hne
        exact hne rfl
      rw [regOf_eq_ok] at ho
      subst ho hj
      rw [hos, List.head?_map, Option.map_eq_some_iff] at hhead
      obtain ⟨a, ha, hreg⟩ := hhead
      rw [List.head?_eq_getElem?] at ha
      exact ⟨op, a, hop, hread 0 a ha, hopc ▸ hmem, toNat_of_ofWord_reg hreg⟩
  · exact absurd rfl hne

/-- Settles O22: the stack component of what a completed instruction can change. -/
theorem stackChangesOnlyByTheFour : Obligations.StackChangesOnlyByTheFour := by
  intro s t h
  obtain ⟨-, ⟨i, op, _, _, hdone, hop, hopc, -⟩ | ⟨kind, info, rfl⟩⟩ := step_cases h
  · obtain hst | ⟨hi, v, hst, -⟩ | ⟨hi, hst⟩ := hdone.changes.stack
    · exact .inl hst
    · exact .inr ⟨op, hop, .inl ⟨hopc ▸ hi, v, hst⟩⟩
    · exact .inr ⟨op, hop, .inr ⟨hopc ▸ hi, hst⟩⟩
  · exact .inl rfl

/-- Settles O23: the two stream components of what a completed instruction can change. -/
theorem streamsMoveOnlyByOutAndIn : Obligations.StreamsMoveOnlyByOutAndIn := by
  intro s t h
  obtain ⟨-, ⟨i, op, _, _, hdone, hop, hopc, -⟩ | ⟨kind, info, rfl⟩⟩ := step_cases h
  · have hc := hdone.changes
    exact ⟨hc.output.imp_right fun ⟨hi, hv⟩ => ⟨read_eq_some_of_toNat hop (hopc.trans hi), hv⟩,
      hc.input.imp_right fun ⟨hi, hv⟩ => ⟨read_eq_some_of_toNat hop (hopc.trans hi), hv⟩⟩
  · exact ⟨.inl rfl, .inl rfl⟩

end Sys2Proof.Machine
end

section
/-! # A step beside the same step with other streams

A change of the streams alone commutes with every instruction that does not look at what was changed. -/

namespace Sys2Proof.Machine

/-- A change of the two streams that an append to the output passes through. -/
structure StreamMap where
  output : List Val → List Val
  input : List Byte → List Byte
  inputEnd : InputEnd → InputEnd
  output_append : ∀ (o : List Val) (v : Val), output (o ++ [v]) = output o ++ [v]

namespace StreamMap

/-- The state with its streams changed. -/
def apply (m : StreamMap) (s : State) : State :=
  { s with output := m.output s.output, input := m.input s.input, inputEnd := m.inputEnd s.inputEnd }

/-- The output has `o` before it. -/
def prependOutput (o : List Val) : StreamMap where
  output := (o ++ ·)
  input := id
  inputEnd := id
  output_append p v := (List.append_assoc o p [v]).symm

/-- The unread input is `l`, and `e` follows it. -/
def replaceInput (l : List Byte) (e : InputEnd) : StreamMap where
  output := id
  input := fun _ => l
  inputEnd := fun _ => e
  output_append _ _ := rfl

/-- The unread input and what follows it stay as they are. -/
def KeepsInput (m : StreamMap) : Prop := m.input = id ∧ m.inputEnd = id

variable (m : StreamMap) (s : State)

@[simp] theorem ip_apply : (m.apply s).ip = s.ip := rfl
@[simp] theorem advance_apply (n : Nat) : (m.apply s).advance n = m.apply (s.advance n) := rfl
@[simp] theorem setIp_apply (a : Nat) : (m.apply s).setIp a = m.apply (s.setIp a) := rfl

/-! ### The shared operations -/

@[simp] theorem valOf_apply (o : Operand) : valOf (m.apply s) o = valOf s o := by
  cases o <;> rfl

@[simp] theorem writeReg_apply (r : RegIdx) (v : Nat) : writeReg r v (m.apply s) = m.apply <$> writeReg r v s := by
  rw [writeReg, writeReg]
  split <;> rfl

@[simp] theorem pushVal_apply (v : Nat) : pushVal v (m.apply s) = m.apply <$> pushVal v s := by
  have hroom : (m.apply s).hasRoom = s.hasRoom := rfl
  rw [pushVal, pushVal, hroom]
  split
  · split <;> rfl
  · rfl

@[simp] theorem popVal_apply : popVal (m.apply s) = Prod.map id m.apply <$> popVal s := by
  have hst : (m.apply s).stack = s.stack := rfl
  rw [popVal, popVal, hst]
  cases s.stack <;> rfl

@[simp] theorem memRead_apply (a : Nat) : memRead a (m.apply s) = memRead a s := rfl

@[simp] theorem memWrite_apply (a : Nat) (w : Word) : memWrite a w (m.apply s) = m.apply <$> memWrite a w s := by
  have hmem : (m.apply s).mem = s.mem := rfl
  rw [memWrite, memWrite, hmem]
  split <;> rfl

@[simp] theorem emit_apply (v : Val) : emit v (m.apply s) = m.apply (emit v s) := by
  simp only [emit, apply, State.setOutput, m.output_append]

theorem setInput_apply (hm : m.KeepsInput) (l : List Byte) : (m.apply s).setInput l = m.apply (s.setInput l) := by
  obtain ⟨hin, -⟩ := hm
  simp [apply, State.setInput, hin]

theorem nextInput_apply (hm : m.KeepsInput) : nextInput (m.apply s) = Prod.map id m.apply <$> nextInput s := by
  have hin : (m.apply s).input = s.input := congrFun hm.1 s.input
  have hend : (m.apply s).inputEnd = s.inputEnd := congrFun hm.2 s.inputEnd
  rw [nextInput, nextInput, hin, hend]
  cases s.input with
  | nil => cases s.inputEnd <;> rfl
  | cons c rest => simp only [setInput_apply m s hm]; rfl

/-! ### Instructions and the step -/

theorem finish_apply {i : Instr} {t : State} {body body' : Except Stop State} (hb : body' = m.apply <$> body)
    (h : finish i s body = .next t) : finish i (m.apply s) body' = .next (m.apply t) := by
  subst hb
  obtain rfl | ⟨kind, info, rfl, rfl⟩ := (finish_eq_next i s t body).1 h <;> rfl

/-- Every instruction commutes with a change of the streams; `in`, opcode 20, with one that keeps the input. -/
theorem exec_apply {i : Instr} {t : State} (hm : i.opcode = 20 → m.KeepsInput) (h : exec i s = .next t) :
    exec i (m.apply s) = .next (m.apply t) := by
  cases i with
  | halt => cases h; rfl
  | noop => cases h; rfl
  | inp a => exact finish_apply m s (by simp [nextInput_apply m _ (hm rfl)]) h
  | jnz a b => exact finish_apply m s (by simp [apply_ite m.apply]) h
  | jez a b => exact finish_apply m s (by simp [apply_ite m.apply]) h
  -- The body of every other instruction is a chain of shared operations that each commute.
  | _ => exact finish_apply m s (by simp) h

theorem rejectFault_apply (r : DecodeReject) (ws : List Word) :
    rejectFault r ws (m.apply s) = m.apply (rejectFault r ws s) := by
  cases r <;> rfl

/-- A step commutes with a change of the streams, unless it executes `in` and the input is changed. -/
theorem step_apply {t : State} (hm : s.mem.read s.ip = some 20 → m.KeepsInput) (h : step s = .next t) :
    step (m.apply s) = .next (m.apply t) := by
  obtain ⟨hr, ⟨i, rest, hd, hexec⟩ | ⟨r, hd, rfl⟩⟩ := step_next h
  · obtain ⟨op, _, _, hop, hopc, -⟩ := words_at_ip hd
    rw [step_of_decode (m.apply s) i rest hr hd]
    exact exec_apply m s (fun hi => hm (read_eq_some_of_toNat hop (hopc.trans hi))) hexec
  · rw [step_of_reject (m.apply s) r hr hd]
    exact congrArg Host.Outcome.next (rejectFault_apply m s r _)

end StreamMap

/-- Settles O24: putting Vals before the output keeps the input, so every step commutes with it. -/
theorem outputIsNeverRead : Obligations.OutputIsNeverRead :=
  fun s _ o h => StreamMap.step_apply (.prependOutput o) s (fun _ => ⟨rfl, rfl⟩) h

/-- Settles O25: a step that does not execute `in` commutes with every replacement of the input. -/
theorem inputIsReadOnlyByIn : Obligations.InputIsReadOnlyByIn :=
  fun s _ l e h hop => StreamMap.step_apply (.replaceInput l e) s (fun hin => absurd hin hop) h

end Sys2Proof.Machine
end

section
/-! # Load and reset (spec/20_memory.md R28, spec/70_reset_and_hazards.md R117) -/

namespace Sys2Proof.Machine

theorem wordOfBytes_toNat (lo hi : Byte) : (wordOfBytes lo hi).toNat = lo.toNat + 256 * hi.toNat := by
  have := lo.isLt
  have := hi.isLt
  rw [wordOfBytes, BitVec.toNat_ofNat]
  omega

/-- An odd number of bytes is no list of Words (R28). -/
theorem wordsOfBytes_odd {bytes : List Byte} (h : bytes.length % 2 = 1) : wordsOfBytes bytes = none := by
  fun_induction wordsOfBytes bytes with
  | case1 => exact absurd h (by decide)
  | case2 => rfl
  | case3 lo hi rest ih =>
    rw [List.length_cons, List.length_cons] at h
    rw [ih (by omega)]; rfl

/-- An even number of bytes is half as many Words, the `k`th from the `k`th pair, low-order byte first (R28). -/
theorem wordsOfBytes_even {bytes : List Byte} (h : bytes.length % 2 = 0) :
    ∃ ws, wordsOfBytes bytes = some ws ∧ ws.length = bytes.length / 2 ∧
      ∀ k lo hi, bytes[2 * k]? = some lo → bytes[2 * k + 1]? = some hi → ws[k]? = some (wordOfBytes lo hi) := by
  fun_induction wordsOfBytes bytes with
  | case1 => exact ⟨[], rfl, rfl, by simp⟩
  | case2 => exact absurd h (by simp)
  | case3 lo hi rest ih =>
    rw [List.length_cons, List.length_cons] at h ⊢
    obtain ⟨ws, hws, hlen, hget⟩ := ih (by omega)
    refine ⟨wordOfBytes lo hi :: ws, by rw [hws]; rfl, by rw [List.length_cons]; omega, fun k a b ha hb => ?_⟩
    cases k with
    | zero => cases ha; cases hb; rfl
    | succ k => exact hget k a b ha hb

theorem boot_of_odd {p : RunParams} {image : List Byte} (h : image.length % 2 = 1) :
    boot p image =
      .next (takeFault { kind := .malformedProgram, pc0 := none, opcode := none, info := none } (resetWith p)) := by
  rw [boot, wordsOfBytes_odd h]

theorem boot_of_words {p : RunParams} {image : List Byte} {ws : List Word} (h : wordsOfBytes image = some ws)
    (hlen : ws.length ≤ p.lmax) : boot p image = .next ((resetWith p).setMem (memoryOfWords ws)) := by
  rw [boot, h]
  exact if_pos hlen

theorem reg_resetWith (p : RunParams) (j : RegIdx) : (resetWith p).reg j = 0 := by
  simp [State.reg, resetWith, State.reset, Vector.get_eq_getElem]

/-- Settles O58: both ends of the load leave the reset state but for its run state or its memory. -/
theorem resetValues : Obligations.ResetValues := by
  intro p image hmax
  rcases Nat.mod_two_eq_zero_or_one image.length with heven | hodd
  · obtain ⟨ws, hws, hlen, hget⟩ := wordsOfBytes_even heven
    have hword : ∀ k lo hi, image[2 * k]? = some lo → image[2 * k + 1]? = some hi →
        ∃ w, (memoryOfWords ws).read k = some w ∧ w.toNat = lo.toNat + 256 * hi.toNat :=
      fun k lo hi hlo hhi =>
        ⟨_, (read_memoryOfWords ws k).trans (hget k lo hi hlo hhi), wordOfBytes_toNat lo hi⟩
    exact ⟨_, boot_of_words hws (by omega), rfl, fun _ => ⟨rfl, hlen⟩, fun _ => hword, by omega, reg_resetWith p,
      rfl, rfl, rfl, rfl, rfl⟩
  · exact ⟨_, boot_of_odd hodd, rfl, by omega, by omega, fun _ => ⟨_, rfl, rfl⟩, reg_resetWith p,
      rfl, rfl, rfl, rfl, rfl⟩

end Sys2Proof.Machine
end

section
/-! # Program memory: its canonical form and what a step keeps of it (spec/20_memory.md R27, R30, R37) -/

namespace Sys2Proof.Machine

/-! ### The canonical form is unique -/

/-- Nothing is listed beyond the last cell. -/
theorem cellWord_of_size_le {size low a : Nat} {cells : List (Nat × Word)}
    (h : cellsCanonical size low cells = true) (ha : size ≤ a) : cellWord cells a = 0 := by
  induction cells generalizing low with
  | nil => rfl
  | cons p rest ih =>
    obtain ⟨-, hlt, -, hrest⟩ := (cellsCanonical_cons _ _ _ _ _).1 h
    rw [cellWord, if_neg (by omega), ih hrest]

/-- The first listed address is the least one that reads other than an unlisted cell does. -/
theorem head_le_of_cellWord_ne_zero {size low k a : Nat} {w : Word} {rest : List (Nat × Word)}
    (h : cellsCanonical size low ((k, w) :: rest) = true) (ha : cellWord ((k, w) :: rest) a ≠ 0) : k ≤ a := by
  obtain ⟨-, hlt, hw, hrest⟩ := (cellsCanonical_cons _ _ _ _ _).1 h
  have hk : cellsCanonical size k ((k, w) :: rest) = true :=
    (cellsCanonical_cons _ _ _ _ _).2 ⟨Nat.le_refl k, hlt, hw, hrest⟩
  exact Nat.le_of_not_lt fun hlt' => ha (cellWord_of_lt _ _ _ _ hk hlt')

theorem cellWord_head (k : Nat) (w : Word) (rest : List (Nat × Word)) : cellWord ((k, w) :: rest) k = w :=
  if_pos rfl

/-- Canonical cell lists that give every address the same Word are equal: their first addresses are the same least
address, hold the same Word, and what follows them reads the same. -/
theorem cells_eq_of_cellWord_eq {size low : Nat} {cells cells' : List (Nat × Word)}
    (h : cellsCanonical size low cells = true) (h' : cellsCanonical size low cells' = true)
    (heq : ∀ a, cellWord cells a = cellWord cells' a) : cells = cells' := by
  induction cells generalizing low cells' with
  | nil =>
    cases cells' with
    | nil => rfl
    | cons p' rest' =>
      obtain ⟨-, -, hw', -⟩ := (cellsCanonical_cons _ _ _ _ _).1 h'
      exact absurd ((heq p'.1).trans (cellWord_head _ _ _)).symm hw'
  | cons p rest ih =>
    obtain ⟨k, w⟩ := p
    obtain ⟨-, -, hw, hrest⟩ := (cellsCanonical_cons _ _ _ _ _).1 h
    cases cells' with
    | nil => exact absurd ((cellWord_head k w rest).symm.trans (heq k)) hw
    | cons p' rest' =>
      obtain ⟨k', w'⟩ := p'
      obtain ⟨-, -, hw', hrest'⟩ := (cellsCanonical_cons _ _ _ _ _).1 h'
      have hk : k = k' := Nat.le_antisymm
        (head_le_of_cellWord_ne_zero h (by rw [heq, cellWord_head]; exact hw'))
        (head_le_of_cellWord_ne_zero h' (by rw [← heq, cellWord_head]; exact hw))
      subst hk
      have hww : w = w' := by rw [← cellWord_head k w rest, heq, cellWord_head]
      subst hww
      have hread : ∀ a, cellWord rest a = cellWord rest' a := fun a => by
        by_cases ha : k = a
        · rw [cellWord_of_lt _ _ a _ hrest (by omega), cellWord_of_lt _ _ a _ hrest' (by omega)]
        · simpa [cellWord, ha] using heq a
      rw [ih hrest hrest' hread]

/-- Settles O51: reads give every Word below the size, and a canonical list has none beyond it. -/
theorem memoriesThatReadAlikeAreEqual : Obligations.MemoriesThatReadAlikeAreEqual := by
  rintro ⟨size, cells⟩ ⟨size', cells'⟩ hwf hwf' hsize hread
  obtain rfl : size = size' := hsize
  have hcell : ∀ a, cellWord cells a = cellWord cells' a := fun a => by
    rcases Nat.lt_or_ge a size with ha | ha
    · simpa [Memory.read, ha] using hread a
    · rw [cellWord_of_size_le hwf ha, cellWord_of_size_le hwf' ha]
  exact congrArg (Memory.mk size) (cells_eq_of_cellWord_eq hwf hwf' hcell)

/-! ### What a step keeps -/

/-- Settles O19: none of the three is among what a completed instruction changes, and a fault keeps them. -/
theorem memorySizeNeverChanges : Obligations.MemorySizeNeverChanges := by
  intro s t h
  obtain ⟨-, ⟨i, _, _, _, hdone, -⟩ | ⟨kind, info, rfl⟩⟩ := step_cases h
  · exact ⟨hdone.changes.mem_size, hdone.changes.stackMax, hdone.changes.inputEnd⟩
  · exact ⟨rfl, rfl, rfl⟩

/-- A completed instruction stores a Val or nothing, so a Word above 32767 was there before. -/
theorem Changes.read_of_high {i : Instr} {s t : State} (h : Changes i s t) {a : Nat} {w : Word}
    (hw : t.mem.read a = some w) (hhigh : 32768 ≤ w.toNat) : s.mem.read a = some w := by
  obtain hm | ⟨_, _, va, vb, _, _, _, _, hm⟩ := h.mem <;> rw [hm] at hw
  · exact hw
  · rw [Memory.read_write] at hw
    split at hw
    · have hval : w.toNat = vb.toNat := by rw [← Option.some.inj hw, wordOfVal_toNat]
      have := vb.isLt
      omega
    · exact hw

/-- Settles O20: a completed instruction stores no Word above 32767, and a fault stores none. -/
theorem highCellsComeOnlyFromTheImage : Obligations.HighCellsComeOnlyFromTheImage := by
  intro s t a w h hw hhigh
  obtain ⟨-, ⟨i, _, _, _, hdone, -⟩ | ⟨kind, info, rfl⟩⟩ := step_cases h
  · exact hdone.changes.read_of_high hw hhigh
  · exact hw

end Sys2Proof.Machine
end

section
/-! # A store seen by the next fetch (spec/20_memory.md R42) -/

namespace Sys2Proof.Machine

/-- The value of an operand Word by number (R48) is that of the resolver on its class. -/
theorem valueOfWord_eq_some (s : State) (w : Word) (n : Nat) :
    valueOfWord s w = some n ↔ ∃ v, valOf s (.ofWord w) = .ok v ∧ v.toNat = n := by
  rcases Nat.lt_or_ge w.toNat 32768 with hlit | hlit
  · rw [Operand.ofWord_lit w (by omega), valueOfWord, if_pos (by omega)]
    simp [valOf, Nat.mod_eq_of_lt hlit]
  · rcases Nat.lt_or_ge w.toNat 32776 with hreg | hreg
    · have hr : (Fin.ofNat 8 (w.toNat - 32768) : RegIdx) = ⟨w.toNat - 32768, by omega⟩ :=
        Fin.ext (Nat.mod_eq_of_lt (by omega))
      rw [Operand.ofWord_reg w hlit (by omega), valueOfWord, if_neg (by omega), dif_pos (by omega), hr]
      simp [valOf]
    · rw [Operand.ofWord_invalid w hreg, valueOfWord, if_neg (by omega), dif_neg (by omega)]
      simp [valOf]

theorem toNat_of_valOf {s : State} {w : Word} {v : Val} {n : Nat} (hv : valOf s (.ofWord w) = .ok v)
    (hn : valueOfWord s w = some n) : v.toNat = n := by
  obtain ⟨v', hv', rfl⟩ := (valueOfWord_eq_some s w n).1 hn
  rw [hv] at hv'
  rw [Except.ok.inj hv']

/-- A Word that is no opcode is rejected as such, whatever follows it (R45). -/
theorem decode_of_opcode_ge {op : Word} (ws : List Word) (h : 22 ≤ op.toNat) :
    decode (op :: ws) = .error (.unknownOpcode op) := by
  rw [decode]
  split
  case h_23 => rfl
  all_goals omega

theorem step_of_unknown_opcode {s : State} {op : Word} (hr : s.run = .running) (hop : s.mem.read s.ip = some op)
    (h : 22 ≤ op.toNat) : step s = .next (faultedAt s .unknownOpcode op.toNat (some op.toNat)) := by
  have hwin := s.mem.window_succ_some _ 3 _ hop
  rw [step_of_reject s (.unknownOpcode op) hr (by rw [hwin, decode_of_opcode_ge _ h]), rejectFault,
    takeFault_at_ip _ _ rfl, Memory.window_head, hop]
  simp [faultedAt, faultedBy]

theorem step_of_noop {s : State} (hr : s.run = .running) (hop : s.mem.read s.ip = some 21) :
    step s = .next (s.advance 1) := by
  have hd : decode (s.mem.window s.ip 4) = .ok (.noop, s.mem.window (s.ip + 1) 3) := by
    rw [s.mem.window_succ_some _ _ _ hop]; rfl
  rw [step_of_decode s _ _ hr hd]
  rfl

theorem step_of_wmem {s : State} {a b : Word} (hr : s.run = .running) (hop : s.mem.read s.ip = some 16)
    (ha : s.mem.read (s.ip + 1) = some a) (hb : s.mem.read (s.ip + 2) = some b) :
    step s = exec (.wmem (.ofWord a) (.ofWord b)) s := by
  refine step_of_decode s _ (s.mem.window (s.ip + 3) 1) hr ?_
  rw [s.mem.window_succ_some _ _ _ hop, s.mem.window_succ_some _ _ _ ha, s.mem.window_succ_some _ _ _ hb]
  rfl

theorem onlyIp_advance (s : State) (n : Nat) : OnlyIp s (s.advance n) (s.ip + n) :=
  ⟨fun _ => rfl, rfl, rfl, ⟨rfl, fun _ => rfl⟩, rfl, ⟨rfl, rfl, rfl⟩, rfl⟩

/-- After a `wmem` that does not fault, the cell at its address holds its datum. -/
theorem exists_read_of_step_wmem {s t : State} {a b : Word} {va vb : Nat} (h : step s = .next t)
    (ht : t.run = .running) (hop : s.mem.read s.ip = some 16) (ha : s.mem.read (s.ip + 1) = some a)
    (hb : s.mem.read (s.ip + 2) = some b) (hva : valueOfWord s a = some va) (hvb : valueOfWord s b = some vb) :
    ∃ w, t.mem.read va = some w ∧ w.toNat = vb := by
  obtain ⟨hr, -⟩ := step_next h
  rw [step_of_wmem hr hop ha hb] at h
  obtain ⟨v, u, hv, hu, hlt, rfl⟩ | ⟨_, _, _, rfl⟩ := exec_next h
  · rw [← toNat_of_valOf hv hva, ← toNat_of_valOf hu hvb]
    exact ⟨wordOfVal u, s.mem.read_write_self _ _ hlt, wordOfVal_toNat u⟩
  · exact nomatch ht

/-- Settles O27: the stored Word is the one read at the next `ip`, and 21 is `noop` where 22 and more is no opcode. -/
theorem storeIsSeenByTheNextFetch : Obligations.StoreIsSeenByTheNextFetch := by
  rintro s t a b va vb h ht hop ha hb hva hvb rfl
  obtain ⟨w, hw, rfl⟩ := exists_read_of_step_wmem h ht hop ha hb hva hvb
  exact ⟨fun hnoop => ⟨_, step_of_noop ht (read_eq_some_of_toNat hw hnoop), onlyIp_advance t 1⟩,
    step_of_unknown_opcode ht hw⟩

end Sys2Proof.Machine
end

section
/-! # What a load gives (spec/20_memory.md R28, decision D5) -/

namespace Sys2Proof.Machine

theorem boot_of_too_long {p : RunParams} {image : List Byte} {ws : List Word} (h : wordsOfBytes image = some ws)
    (hlen : p.lmax < ws.length) : boot p image = .refused .imageTooLong := by
  rw [boot, h]
  exact if_neg (Nat.not_le_of_lt hlen)

/-- A state that the load gives is that of a malformed image, or the reset state with the memory of some Words. -/
theorem boot_next {p : RunParams} {image : List Byte} {s : State} (h : boot p image = .next s) :
    s = takeFault { kind := .malformedProgram, pc0 := none, opcode := none, info := none } (resetWith p) ∨
      ∃ ws, s = (resetWith p).setMem (memoryOfWords ws) := by
  rcases Nat.mod_two_eq_zero_or_one image.length with heven | hodd
  · obtain ⟨ws, hws, -⟩ := wordsOfBytes_even heven
    rcases Nat.lt_or_ge p.lmax ws.length with hlong | hfits
    · rw [boot_of_too_long hws hlong] at h
      exact nomatch h
    · rw [boot_of_words hws hfits] at h
      injection h with h
      exact .inr ⟨ws, h.symm⟩
  · rw [boot_of_odd hodd] at h
    injection h with h
    exact .inl h.symm

/-- The empty stack is within any bound. -/
theorem depthOk_of_stack_nil {s : State} (h : s.stack = []) : s.depthOk = true :=
  (depthOk_iff s).2 fun n _ => by rw [h]; exact Nat.zero_le n

/-- Settles O17: a loaded memory is canonical, `ip` is 0, the stack is empty, and the only record is that of the load. -/
theorem bootedStateIsLegal : Obligations.BootedStateIsLegal := by
  intro p image s h
  obtain rfl | ⟨ws, rfl⟩ := boot_next h
  · exact ⟨reset_mem_wf, Nat.zero_le _, depthOk_of_stack_nil rfl, rfl⟩
  · exact ⟨memoryOfWords_wf ws, Nat.zero_le _, depthOk_of_stack_nil rfl, rfl⟩

/-- Settles O55: every Word of the image has its two bytes in it, and `resetValues` gives the cell they make. -/
theorem loadIsLittleEndian : Obligations.LoadIsLittleEndian := by
  intro p image heven hmax
  obtain ⟨s, hboot, -, hsize, hcells, -⟩ := resetValues p image (by omega)
  refine ⟨s, hboot, (hsize heven).2, fun k hk => ?_⟩
  have hlo : image[2 * k]? = some image[2 * k] := List.getElem?_eq_getElem (by omega)
  have hhi : image[2 * k + 1]? = some image[2 * k + 1] := List.getElem?_eq_getElem (by omega)
  obtain ⟨w, hw, hval⟩ := hcells heven k _ _ hlo hhi
  exact ⟨_, _, w, hlo, hhi, hw, hval⟩

/-- Settles O57: the length in Words is compared with `LMAX` only when the bytes make up Words. -/
theorem longImageIsRefused : Obligations.LongImageIsRefused := by
  refine fun p image hlong => ⟨fun heven => ?_, fun hodd => ⟨_, boot_of_odd hodd, rfl⟩⟩
  obtain ⟨ws, hws, hlen, -⟩ := wordsOfBytes_even heven
  exact boot_of_too_long hws (by omega)

end Sys2Proof.Machine
end

section
/-! # Instructions and their Words (spec/30_encoding.md R44 to R53) -/

namespace Sys2Proof

open Sys2Proof.Machine

/-! ### From the Words of accepted operands, each format (R46) makes the instruction of those operands -/

theorem takeV_toWord {mk : Operand → Instr} {a : Operand} (rest : List Word) (ha : Token.V.accepts a = true) :
    takeV mk (a.toWord :: rest) = .ok (mk a, rest) := by
  rw [takeV, Operand.ofWord_toWord _ a ha]

theorem takeR_toWord {mk : Operand → Instr} {a : Operand} (rest : List Word) (ha : Token.R.accepts a = true) :
    takeR mk (a.toWord :: rest) = .ok (mk a, rest) := by
  rw [takeR, Operand.ofWord_toWord _ a ha]

theorem takeRV_toWord {mk : Operand → Operand → Instr} {a b : Operand} (rest : List Word)
    (h : (Token.R.accepts a && Token.V.accepts b) = true) :
    takeRV mk (a.toWord :: b.toWord :: rest) = .ok (mk a b, rest) := by
  obtain ⟨ha, hb⟩ := Bool.and_eq_true_iff.1 h
  rw [takeRV, Operand.ofWord_toWord _ a ha, Operand.ofWord_toWord _ b hb]

theorem takeVV_toWord {mk : Operand → Operand → Instr} {a b : Operand} (rest : List Word)
    (h : (Token.V.accepts a && Token.V.accepts b) = true) :
    takeVV mk (a.toWord :: b.toWord :: rest) = .ok (mk a b, rest) := by
  obtain ⟨ha, hb⟩ := Bool.and_eq_true_iff.1 h
  rw [takeVV, Operand.ofWord_toWord _ a ha, Operand.ofWord_toWord _ b hb]

theorem takeRVV_toWord {mk : Operand → Operand → Operand → Instr} {a b c : Operand} (rest : List Word)
    (h : (Token.R.accepts a && Token.V.accepts b && Token.V.accepts c) = true) :
    takeRVV mk (a.toWord :: b.toWord :: c.toWord :: rest) = .ok (mk a b c, rest) := by
  obtain ⟨hab, hc⟩ := Bool.and_eq_true_iff.1 h
  obtain ⟨ha, hb⟩ := Bool.and_eq_true_iff.1 hab
  rw [takeRVV, Operand.ofWord_toWord _ a ha, Operand.ofWord_toWord _ b hb, Operand.ofWord_toWord _ c hc]

/-- Settles O1: the opcode Word selects the instruction's own format, which reads its operands back. -/
theorem decodeOfEncodeIsTheInstruction : Obligations.DecodeOfEncodeIsTheInstruction := by
  intro i rest h
  cases i with
  | halt | ret | noop => rfl
  | push a | jmp a | call a | out a => exact takeV_toWord rest h
  | pop a | inp a => exact takeR_toWord rest h
  | set a b | not a b | rmem a b => exact takeRV_toWord rest h
  | jnz a b | jez a b | wmem a b => exact takeVV_toWord rest h
  | eq a b c | gt a b c | add a b c | mult a b c | mod a b c | and a b c | or a b c => exact takeRVV_toWord rest h

/-! ### From Words to the instruction decoded from them -/

/-- The opcode Word of an instruction is the Word whose number its opcode is. -/
theorem Instr.opcodeWord_eq {i : Instr} {op : Word} (h : op.toNat = i.opcode) : i.opcodeWord = op := by
  rw [Instr.opcodeWord, ← h, BitVec.ofNat_toNat, BitVec.setWidth_eq]

/-- Settles O2: the opcode Word is known by its number, and classifying an operand Word loses nothing of it. -/
theorem encodeOfDecodeIsTheWords : Obligations.EncodeOfDecodeIsTheWords := by
  intro ws rest i h
  obtain ⟨op, os, -, rfl, hop, hos, -⟩ := decode_eq_ok ws rest i h
  have hwords : i.operands.map Operand.toWord = os := by
    rw [hos, List.map_map]
    exact (List.map_congr_left fun w _ => Operand.toWord_ofWord w).trans (List.map_id os)
  rw [encode, Instr.opcodeWord_eq hop, hwords, List.cons_append]

/-- Settles O6: the decoder takes as many operand Words as the opcode's shape has tokens. -/
theorem lengthFollowsFromTheOpcode : Obligations.LengthFollowsFromTheOpcode := by
  intro op ws rest i h
  obtain ⟨op', os, sh, hws, hop, hos, hsh, hlen, -⟩ := decode_eq_ok _ rest i h
  obtain ⟨rfl, rfl⟩ := List.cons.inj hws
  refine ⟨sh, hop ▸ hsh, ?_, ?_⟩
  · rw [Instr.length, hos, List.length_map, hlen, Nat.add_comm]
  · rw [List.length_append, hlen]

/-! ### The opcode Word (R45) -/

theorem Instr.opcode_le (i : Instr) : i.opcode ≤ 21 := by
  cases i <;> simp [Instr.opcode]

theorem length_le_of_shapeOf {n : Nat} {sh : List Token} (h : shapeOf n = some sh) : sh.length ≤ 3 := by
  unfold shapeOf at h
  split at h <;> cases h <;> decide

/-- An opcode with as many Words after it as the longest shape has tokens is decoded. -/
theorem exists_decode_eq_ok {op : Word} {ws : List Word} (hop : op.toNat ≤ 21) (hws : 3 ≤ ws.length) :
    ∃ i rest, decode (op :: ws) = .ok (i, rest) := by
  cases hd : decode (op :: ws) with
  | ok p => exact ⟨p.1, p.2, rfl⟩
  | error r =>
    obtain ⟨hnil, -⟩ | ⟨op', os, hcons, hunknown | hshort⟩ := decode_eq_error _ r hd
    · exact nomatch hnil
    · obtain ⟨rfl, -⟩ := List.cons.inj hcons
      obtain ⟨-, hge, -⟩ := hunknown
      omega
    · obtain ⟨-, rfl⟩ := List.cons.inj hcons
      obtain ⟨sh, hsh, hlt, -⟩ := hshort
      have := length_le_of_shapeOf hsh
      omega

/-- Settles O3: the opcode of what is decoded is the number of the first Word, and a greater number is rejected. -/
theorem opcodeWordIsComparedWhole : Obligations.OpcodeWordIsComparedWhole := by
  refine ⟨fun op ws rest i h => ?_, fun op ws => exists_decode_eq_ok, fun op ws => decode_of_opcode_ge ws,
    fun s op => step_of_unknown_opcode⟩
  obtain ⟨op', _, _, hws, hop, -⟩ := decode_eq_ok _ rest i h
  obtain ⟨rfl, -⟩ := List.cons.inj hws
  exact ⟨hop, hop ▸ i.opcode_le⟩

/-- Settles O7: one row of the opcode table of each shape, and 256, which is 0 in its low byte only. -/
theorem sampleWordsDecode : Obligations.SampleWordsDecode :=
  ⟨rfl, rfl, rfl, rfl, rfl, rfl, rfl, rfl, rfl⟩

/-! ### Operand Words (R47 to R49) -/

/-- Settles O4: the three ranges of R47, each with the number the Word stands for. -/
theorem operandWordsFallInThreeClasses : Obligations.OperandWordsFallInThreeClasses := by
  refine fun w => ⟨fun hlit => ⟨_, Operand.ofWord_lit w hlit, ?_⟩,
    fun hlow hhigh => ⟨_, Operand.ofWord_reg w hlow hhigh, ?_⟩, Operand.ofWord_invalid w⟩
  · rw [BitVec.toNat_ofNat]
    omega
  · exact Nat.mod_eq_of_lt (by omega)

theorem valueOfWord_eq_none {s : State} {w : Word} (h : valueOfWord s w = none) : 32776 ≤ w.toNat := by
  unfold valueOfWord at h
  split_ifs at h
  omega

/-- The register of a Word by number (R49) is the one its class names. -/
theorem ofWord_of_registerOfWord {w : Word} {i : RegIdx} (h : registerOfWord w = some i) :
    Operand.ofWord w = .reg i := by
  unfold registerOfWord at h
  split_ifs at h with hrange
  obtain ⟨hlow, hhigh⟩ := hrange
  rw [Operand.ofWord_reg w hlow hhigh, ← Option.some.inj h]
  exact congrArg Operand.reg (Fin.ext (Nat.mod_eq_of_lt (by omega)))

theorem registerOfWord_eq_none {w : Word} (h : registerOfWord w = none) : w.toNat ≤ 32767 ∨ 32776 ≤ w.toNat := by
  unfold registerOfWord at h
  split_ifs at h
  omega

/-- `RegOf` refuses every Word that is no register reference, and names it: a literal by its value (R49). -/
theorem regOf_of_registerOfWord_none {w : Word} (h : registerOfWord w = none) :
    regOf (.ofWord w) = .error (.raise .invalidOperand (some w.toNat)) := by
  obtain hlit | hinvalid := registerOfWord_eq_none h
  · obtain ⟨v, hv, hval⟩ := (operandWordsFallInThreeClasses w).1 hlit
    rw [hv, regOf, hval]
  · rw [Operand.ofWord_invalid w hinvalid, regOf]

/-- Settles O5: the resolver's answer on the class of a Word is that of its pseudocode on the Word's number. -/
theorem resolverGivesValueOrRegister : Obligations.ResolverGivesValueOrRegister := by
  refine fun s w => ⟨fun v => (valueOfWord_eq_some s w v).1, fun hnone => ?_, fun i hi => ?_,
    regOf_of_registerOfWord_none⟩
  · rw [Operand.ofWord_invalid w (valueOfWord_eq_none hnone), valOf]
  · rw [ofWord_of_registerOfWord hi, regOf]

end Sys2Proof
end

section
/-! # The step and the fetch loop (spec/40_dispatch.md R57 to R63) -/

namespace Sys2Proof.Machine

/-! ### What every step keeps to -/

/-- Settles O11: a next state has only been reached from Running. -/
theorem stepsAreTakenOnlyWhileRunning : Obligations.StepsAreTakenOnlyWhileRunning :=
  fun _ _ h => (step_next h).1

/-- Settles O13: a completed instruction is not Faulted, and a fault at `ip` sets the run state alone. -/
theorem faultsArePrecise : Obligations.FaultsArePrecise := by
  intro s t r h ht
  obtain ⟨hr, ⟨i, _, _, _, hdone, -⟩ | ⟨kind, info, rfl⟩⟩ := step_cases h
  · exact absurd ht (hdone.changes.run_ne_faulted hr r)
  · cases ht
    exact ⟨rfl, rfl, rfl⟩

/-- Settles O26: of the completions only those of the five control transfers write `ip`. -/
theorem sequentialSuccessor : Obligations.SequentialSuccessor := by
  intro s t op sh h hop hsh hnot hrun
  obtain ⟨-, ⟨i, op', os, sh', hdone, hop', hopc, hos, hsh', hlen, -⟩ | ⟨kind, info, rfl⟩⟩ := step_cases h
  · obtain rfl : op' = op := Option.some.inj (hop'.symm.trans hop)
    obtain rfl : sh' = sh := Option.some.inj (hsh'.symm.trans (hopc ▸ hsh))
    obtain hip | ⟨hi, -⟩ := hdone.changes.ip
    · rw [hip, Instr.length, hos, List.length_map, hlen, Nat.add_assoc, Nat.add_comm 1]
    · exact absurd (hopc ▸ hi) hnot
  · exact absurd rfl (hrun _)

theorem encode_length_le (i : Instr) : (encode i).length ≤ 4 := by
  cases i <;> simp [encode, Instr.operands]

/-- Settles O8: the Words at `ip` are the head of the fetched window, and the decoder reads the instruction back. -/
theorem stepRunsTheDecodedInstruction : Obligations.StepRunsTheDecodedInstruction := by
  intro s i hr hwf hread
  have hwin := s.mem.window_append s.ip (4 - (encode i).length) (encode i) hread
  rw [Nat.add_sub_cancel' (encode_length_le i)] at hwin
  exact step_of_decode s i _ hr (by rw [hwin]; exact decodeOfEncodeIsTheInstruction i _ hwf)

/-! ### The faults of fetch and decode -/

theorem rejectFault_truncated (s : State) :
    rejectFault .truncated (s.mem.window s.ip 4) s =
      faultedBy s .memoryFault (s.mem.read s.ip) (some (s.ip + (s.mem.window s.ip 4).length)) := by
  rw [rejectFault, takeFault_at_ip _ _ rfl, Memory.window_head, faultedBy]

theorem rejectFault_invalidOperand (s : State) (w : Word) :
    rejectFault (.invalidOperand w) (s.mem.window s.ip 4) s =
      faultedBy s .invalidOperand (s.mem.read s.ip) (some w.toNat) := by
  rw [rejectFault, takeFault_at_ip _ _ rfl, Memory.window_head, faultedBy]

theorem step_of_no_opcode {s : State} (hr : s.run = .running) (hop : s.mem.read s.ip = none) :
    step s = .next (faultedBy s .memoryFault none (some s.ip)) := by
  have hwin := s.mem.window_succ_none s.ip 3 hop
  rw [step_of_reject s .truncated hr (by rw [hwin]; rfl), rejectFault_truncated, hwin, hop]
  rfl

/-- Settles O10: at or above `L` no opcode Word is there to fetch. -/
theorem opcodeFetchPastTheEndFaults : Obligations.OpcodeFetchPastTheEndFaults :=
  fun s hr hip => step_of_no_opcode hr ((s.mem.read_eq_none_iff s.ip).2 hip)

theorem read_ip_of_window {s : State} {ws : List Word} (h : s.mem.window s.ip 4 = ws) : s.mem.read s.ip = ws.head? := by
  rw [← h, Memory.window_head]

/-- A window that is short ends where memory does. -/
theorem Memory.read_after_window {m : Memory} {a n : Nat} (h : (m.window a n).length < n) :
    m.read (a + (m.window a n).length) = none := by
  induction n generalizing a with
  | zero => exact absurd h (Nat.not_lt_zero _)
  | succ n ih =>
    cases hr : m.read a with
    | none => rw [m.window_succ_none a n hr]; exact hr
    | some w =>
      rw [m.window_succ_some a n w hr, List.length_cons] at h ⊢
      rw [Nat.add_comm _ 1, ← Nat.add_assoc]
      exact ih (Nat.lt_of_succ_lt_succ h)

/-! ### The first operand Word that is not taken -/

theorem firstRefused_zip_cons_eq_none {t : Token} {ts : List Token} {w : Word} {ws : List Word} :
    firstRefused ((t :: ts).zip (w :: ws)) = none ↔ tokenTakes t w = true ∧ firstRefused (ts.zip ws) = none := by
  by_cases h : tokenTakes t w = true <;> simp [firstRefused, h]

theorem firstRefused_zip_cons_eq_some {t : Token} {ts : List Token} {w u : Word} {ws : List Word} :
    firstRefused ((t :: ts).zip (w :: ws)) = some u ↔
      (tokenTakes t w = true ∧ firstRefused (ts.zip ws) = some u) ∨ (¬ tokenTakes t w = true ∧ w = u) := by
  by_cases h : tokenTakes t w = true <;> simp [firstRefused, h]

theorem all_taken_of_firstRefused_eq_none {ts : List Token} {ws : List Word} (h : firstRefused (ts.zip ws) = none) :
    (List.zipWith tokenTakes ts ws).all id = true := by
  induction ts generalizing ws with
  | nil => rfl
  | cons t ts ih =>
    cases ws with
    | nil => rfl
    | cons w ws =>
      obtain ⟨ht, hrest⟩ := firstRefused_zip_cons_eq_none.1 h
      rw [List.zipWith_cons_cons, List.all_cons, ih hrest, ht]
      rfl

/-- An instruction that is cut short is rejected for its first Word that is not taken, or, without one, as short. -/
theorem rejectShort_eq (ts : List Token) (ws : List Word) :
    rejectShort ts ws = (firstRefused (ts.zip ws)).elim .truncated .invalidOperand := by
  induction ts generalizing ws with
  | nil => rfl
  | cons t ts ih =>
    cases ws with
    | nil => rfl
    | cons w ws =>
      rw [rejectShort, Token.accepts_ofWord, List.zip_cons_cons, firstRefused]
      split
      · exact ih ws
      · rfl

/-! ### A whole instruction with an operand Word that is not taken (R48, R49, R99) -/

theorem valOf_of_refused {w : Word} (s : State) (h : ¬ tokenTakes .V w = true) :
    valOf s (.ofWord w) = .error (.raise .invalidOperand (some w.toNat)) := by
  rw [tokenTakes, decide_eq_true_iff] at h
  rw [Operand.ofWord_invalid w (by omega), valOf]

theorem valOf_of_taken {w : Word} (s : State) (h : tokenTakes .V w = true) : ∃ v, valOf s (.ofWord w) = .ok v := by
  rw [← Token.accepts_ofWord] at h
  cases ho : Operand.ofWord w with
  | lit v => exact ⟨v, rfl⟩
  | reg i => exact ⟨s.reg i, rfl⟩
  | invalid _ => rw [ho] at h; exact nomatch h

theorem regOf_of_taken {w : Word} (h : tokenTakes .R w = true) : ∃ r, regOf (.ofWord w) = .ok r := by
  rw [← Token.accepts_ofWord] at h
  cases ho : Operand.ofWord w with
  | reg i => exact ⟨i, rfl⟩
  | lit _ | invalid _ => rw [ho] at h; exact nomatch h

theorem regOf_of_refused {w : Word} (h : ¬ tokenTakes .R w = true) :
    regOf (.ofWord w) = .error (.raise .invalidOperand (some w.toNat)) := by
  refine regOf_of_registerOfWord_none (dif_neg fun hrange => h ?_)
  simpa [tokenTakes] using hrange

/-- `x` resolves the operands `os` for the tokens `ts` in order: it stops at the first one whose Word is not taken. -/
def StopsAtRefused {α : Type} (ts : List Token) (os : List Operand) (x : Except Stop α) : Prop :=
  ∀ ws w, os = ws.map Operand.ofWord → firstRefused (ts.zip ws) = some w →
    x = .error (.raise .invalidOperand (some w.toNat))

namespace StopsAtRefused

variable {α β : Type} {ts : List Token} {o : Operand} {os : List Operand}

theorem nil {x : Except Stop α} : StopsAtRefused [] os x := fun _ _ _ h => nomatch h

/-- One more operand before the others: resolving it stops exactly when its token does not take its Word. -/
theorem bind {t : Token} {x : Except Stop β} {f : β → Except Stop α}
    (hx : ∀ w, o = .ofWord w → ¬ tokenTakes t w = true → x = .error (.raise .invalidOperand (some w.toNat)))
    (hok : ∀ w, o = .ofWord w → tokenTakes t w = true → ∃ b, x = .ok b)
    (hf : ∀ b, StopsAtRefused ts os (f b)) : StopsAtRefused (t :: ts) (o :: os) (x >>= f) := by
  intro ws w hws hw
  obtain ⟨w', ws', rfl, rfl, rfl⟩ := List.map_eq_cons_iff.1 hws.symm
  obtain ⟨ht, hrest⟩ | ⟨ht, rfl⟩ := firstRefused_zip_cons_eq_some.1 hw
  · obtain ⟨b, rfl⟩ := hok w' rfl ht
    exact hf b ws' w rfl hrest
  · rw [hx w' rfl ht]
    rfl

theorem bind_valOf {s : State} {f : Val → Except Stop α} (hf : ∀ v, StopsAtRefused ts os (f v)) :
    StopsAtRefused (.V :: ts) (o :: os) (valOf s o >>= f) :=
  bind (fun _ h => h ▸ valOf_of_refused s) (fun _ h => h ▸ valOf_of_taken s) hf

theorem bind_regOf {f : RegIdx → Except Stop α} (hf : ∀ r, StopsAtRefused ts os (f r)) :
    StopsAtRefused (.R :: ts) (o :: os) (regOf o >>= f) :=
  bind (fun _ h => h ▸ regOf_of_refused) (fun _ h => h ▸ regOf_of_taken) hf

end StopsAtRefused

theorem finish_of_stopsAtRefused {i : Instr} {s : State} {body : Except Stop State} {ts : List Token}
    {ws : List Word} {w : Word} (h : StopsAtRefused ts i.operands body)
    (hws : i.operands = ws.map Operand.ofWord) (hw : firstRefused (ts.zip ws) = some w) :
    finish i s body = .next (faultedBy s .invalidOperand (some i.opcodeWord) (some w.toNat)) :=
  (finish_eq_next i s _ body).2 (.inr ⟨_, _, h ws w hws hw, rfl⟩)

/-- An instruction raises InvalidOperand for its first operand Word that its token does not take, whatever else would
go wrong later (R60, R99). -/
theorem exec_of_firstRefused {i : Instr} {ts : List Token} {ws : List Word} {w : Word} (s : State)
    (hts : shapeOf i.opcode = some ts) (hws : i.operands = ws.map Operand.ofWord)
    (hw : firstRefused (ts.zip ws) = some w) :
    exec i s = .next (faultedBy s .invalidOperand (some i.opcodeWord) (some w.toNat)) := by
  cases i with
  | halt | ret | noop =>
    cases hts
    exact nomatch hw
  | push a | jmp a | call a | out a =>
    cases hts
    exact finish_of_stopsAtRefused (.bind_valOf fun _ => .nil) hws hw
  | pop a | inp a =>
    cases hts
    exact finish_of_stopsAtRefused (.bind_regOf fun _ => .nil) hws hw
  | set a b | not a b | rmem a b =>
    cases hts
    exact finish_of_stopsAtRefused (.bind_regOf fun _ => .bind_valOf fun _ => .nil) hws hw
  | jnz a b | jez a b | wmem a b =>
    cases hts
    exact finish_of_stopsAtRefused (.bind_valOf fun _ => .bind_valOf fun _ => .nil) hws hw
  | eq a b c | gt a b c | add a b c | mult a b c | mod a b c | and a b c | or a b c =>
    cases hts
    exact finish_of_stopsAtRefused (.bind_regOf fun _ => .bind_valOf fun _ => .bind_valOf fun _ => .nil) hws hw

/-! ### The loop over the tokens -/

theorem fetchNext_of_read {s : State} {a : Nat} {w : Word} (h : s.mem.read a = some w) :
    fetchNext s a = .ok (w, a + 1) := by
  rw [fetchNext, h]

theorem fetchNext_of_no_word {s : State} {a : Nat} (h : s.mem.read a = none) :
    fetchNext s a = .error (.raise .memoryFault (some a)) := by
  rw [fetchNext, h]

theorem fetchTokens_cons_of_read {s : State} {a : Nat} {w : Word} (t : Token) (ts : List Token)
    (h : s.mem.read a = some w) :
    fetchTokens s (t :: ts) a =
      if tokenTakes t w then (w :: ·) <$> fetchTokens s ts (a + 1)
      else .error (.raise .invalidOperand (some w.toNat)) := by
  rw [fetchTokens, fetchNext_of_read h]
  rfl

theorem fetchTokens_cons_of_no_word {s : State} {a : Nat} (t : Token) (ts : List Token) (h : s.mem.read a = none) :
    fetchTokens s (t :: ts) a = .error (.raise .memoryFault (some a)) := by
  rw [fetchTokens, fetchNext_of_no_word h]
  rfl

/-- `ws` stand in memory from address `a` on. -/
def WordsAt (s : State) (a : Nat) (ws : List Word) : Prop :=
  ∀ k (w : Word), ws[k]? = some w → s.mem.read (a + k) = some w

theorem wordsAt_cons {s : State} {a : Nat} {w : Word} {ws : List Word} (h : WordsAt s a (w :: ws)) :
    s.mem.read a = some w ∧ WordsAt s (a + 1) ws := by
  refine ⟨h 0 w rfl, fun k u hk => ?_⟩
  rw [Nat.add_assoc, Nat.add_comm 1]
  exact h (k + 1) u hk

/-- Words in memory that their tokens take are fetched, and the loop goes on behind them. -/
theorem fetchTokens_of_taken {s : State} {ts : List Token} {ws : List Word} {a : Nat} (hat : WordsAt s a ws)
    (htaken : firstRefused (ts.zip ws) = none) (hlen : ws.length ≤ ts.length) :
    fetchTokens s ts a = (ws ++ ·) <$> fetchTokens s (ts.drop ws.length) (a + ws.length) := by
  induction ws generalizing ts a with
  | nil => exact (id_map _).symm
  | cons w ws ih =>
    obtain ⟨hread, hrest⟩ := wordsAt_cons hat
    cases ts with
    | nil => exact absurd hlen (Nat.not_succ_le_zero _)
    | cons t ts =>
      obtain ⟨ht, htaken⟩ := firstRefused_zip_cons_eq_none.1 htaken
      rw [fetchTokens_cons_of_read t ts hread, if_pos ht, ih hrest htaken (Nat.le_of_succ_le_succ hlen),
        List.length_cons, List.drop_succ_cons, Nat.add_assoc, Nat.add_comm 1, ← comp_map]
      rfl

/-- The loop stops at the first Word in memory that its token does not take, whatever Words are missing behind it. -/
theorem fetchTokens_of_refused {s : State} {ts : List Token} {ws : List Word} {a : Nat} {w : Word}
    (hat : WordsAt s a ws) (hw : firstRefused (ts.zip ws) = some w) :
    fetchTokens s ts a = .error (.raise .invalidOperand (some w.toNat)) := by
  induction ws generalizing ts a with
  | nil => rw [List.zip_nil_right] at hw; exact nomatch hw
  | cons u ws ih =>
    obtain ⟨hread, hrest⟩ := wordsAt_cons hat
    cases ts with
    | nil => exact nomatch hw
    | cons t ts =>
      rw [fetchTokens_cons_of_read t ts hread]
      obtain ⟨ht, hw⟩ | ⟨ht, rfl⟩ := firstRefused_zip_cons_eq_some.1 hw
      · rw [if_pos ht, ih hrest hw]
        rfl
      · rw [if_neg ht]

theorem fetchTokens_of_all_taken {s : State} {ts : List Token} {ws : List Word} {a : Nat} (hat : WordsAt s a ws)
    (htaken : firstRefused (ts.zip ws) = none) (hlen : ts.length = ws.length) : fetchTokens s ts a = .ok ws := by
  rw [fetchTokens_of_taken hat htaken (Nat.le_of_eq hlen.symm), ← hlen, List.drop_length]
  exact congrArg Except.ok (List.append_nil ws)

theorem fetchTokens_of_short {s : State} {ts : List Token} {ws : List Word} {a : Nat} (hat : WordsAt s a ws)
    (htaken : firstRefused (ts.zip ws) = none) (hlen : ws.length < ts.length)
    (hend : s.mem.read (a + ws.length) = none) :
    fetchTokens s ts a = .error (.raise .memoryFault (some (a + ws.length))) := by
  rw [fetchTokens_of_taken hat htaken (Nat.le_of_lt hlen), List.drop_eq_getElem_cons hlen,
    fetchTokens_cons_of_no_word _ _ hend]
  rfl

/-! ### The step and the whole loop -/

theorem fetchLoop_of_no_opcode {s : State} (hop : s.mem.read s.ip = none) :
    fetchLoop s = .error (.raise .memoryFault (some s.ip)) := by
  rw [fetchLoop, fetchNext_of_no_word hop]
  rfl

theorem fetchLoop_of_unknown_opcode {s : State} {op : Word} (hop : s.mem.read s.ip = some op)
    (hsh : shapeOf op.toNat = none) : fetchLoop s = .error (.raise .unknownOpcode (some op.toNat)) := by
  simp only [fetchLoop, fetchNext_of_read hop, Bind.bind, Except.bind, hsh]

theorem fetchLoop_of_opcode {s : State} {op : Word} {ts : List Token} (hop : s.mem.read s.ip = some op)
    (hsh : shapeOf op.toNat = some ts) : fetchLoop s = (op :: ·) <$> fetchTokens s ts (s.ip + 1) := by
  simp only [fetchLoop, fetchNext_of_read hop, Bind.bind, Except.bind, hsh]
  rfl

theorem encode_of_words {i : Instr} {op : Word} {ws : List Word} (hop : i.opcodeWord = op)
    (hws : i.operands = ws.map Operand.ofWord) : encode i = op :: ws := by
  simp [encode, hop, hws, Function.comp_def, Operand.toWord_ofWord]

/-- The loop and the step meet the same end: the Words of a well-formed instruction, which the step executes, or the
same first fault. -/
def LoopAgreesWithStep (s : State) : Prop :=
  (∃ i, i.wf = true ∧ fetchLoop s = .ok (encode i) ∧ step s = exec i s) ∨
    ∃ kind info, fetchLoop s = .error (.raise kind info) ∧
      step s = .next (faultedBy s kind (s.mem.read s.ip) info)

/-- Where an instruction is decoded, the loop gives its Words, or refuses the operand Word that `exec` refuses. -/
theorem loopAgreesWithStep_of_decode {s : State} {i : Instr} {rest : List Word} (hr : s.run = .running)
    (hd : decode (s.mem.window s.ip 4) = .ok (i, rest)) : LoopAgreesWithStep s := by
  obtain ⟨op, os, sh, hop, hopc, hw, hos, hsh, hlen, hwf, hat⟩ := words_at_ip hd
  have hloop := fetchLoop_of_opcode hop (hopc ▸ hsh)
  cases hrefused : firstRefused (sh.zip os) with
  | none =>
    refine .inl ⟨i, hwf.trans (all_taken_of_firstRefused_eq_none hrefused), ?_, step_of_decode s i rest hr hd⟩
    rw [hloop, fetchTokens_of_all_taken hat hrefused hlen, encode_of_words hw hos]
    rfl
  | some w =>
    refine .inr ⟨.invalidOperand, some w.toNat, ?_, ?_⟩
    · rw [hloop, fetchTokens_of_refused hat hrefused]
      rfl
    · rw [step_of_decode s i rest hr hd, exec_of_firstRefused s hsh hos hrefused, hw, hop]

/-- Where memory ends inside the instruction, the first fault is a refused operand Word if there is one, and else the
Word that is missing (R106). -/
theorem loopAgreesWithStep_of_short {s : State} {op : Word} {os : List Word} {sh : List Token} (hr : s.run = .running)
    (hwin : s.mem.window s.ip 4 = op :: os) (hsh : shapeOf op.toNat = some sh) (hlen : os.length < sh.length)
    (hd : decode (s.mem.window s.ip 4) = .error (rejectShort sh os)) : LoopAgreesWithStep s := by
  have hop := read_ip_of_window hwin
  have hos : s.mem.window (s.ip + 1) 3 = os :=
    (List.cons.inj ((s.mem.window_succ_some s.ip 3 op hop).symm.trans hwin)).2
  have hat : WordsAt s (s.ip + 1) os := fun k w hk => s.mem.window_getElem _ 3 k w (by rw [hos]; exact hk)
  have hstep := step_of_reject s _ hr hd
  rw [rejectShort_eq] at hstep
  cases hrefused : firstRefused (sh.zip os) with
  | none =>
    have hshort : (s.mem.window (s.ip + 1) 3).length < 3 := by
      have := length_le_of_shapeOf hsh
      rw [hos]
      omega
    have hend := Memory.read_after_window hshort
    rw [hos] at hend
    refine .inr ⟨.memoryFault, some (s.ip + 1 + os.length), ?_, ?_⟩
    · rw [fetchLoop_of_opcode hop hsh, fetchTokens_of_short hat hrefused hlen hend]
      rfl
    · rw [hstep, hrefused, Option.elim_none, rejectFault_truncated, hwin, List.length_cons, Nat.add_assoc,
        Nat.add_comm 1]
  | some w =>
    refine .inr ⟨.invalidOperand, some w.toNat, ?_, ?_⟩
    · rw [fetchLoop_of_opcode hop hsh, fetchTokens_of_refused hat hrefused]
      rfl
    · rw [hstep, hrefused, Option.elim_some, rejectFault_invalidOperand]

theorem loopAgreesWithStep {s : State} (hr : s.run = .running) : LoopAgreesWithStep s := by
  cases hd : decode (s.mem.window s.ip 4) with
  | ok p => exact loopAgreesWithStep_of_decode hr hd
  | error r =>
    obtain ⟨hwin, -⟩ | ⟨op, os, hwin, ⟨hsh, hge, -⟩ | ⟨sh, hsh, hlen, rfl⟩⟩ := decode_eq_error _ r hd
    · have hop := read_ip_of_window hwin
      exact .inr ⟨_, _, fetchLoop_of_no_opcode hop, hop ▸ step_of_no_opcode hr hop⟩
    · have hop := read_ip_of_window hwin
      refine .inr ⟨_, _, fetchLoop_of_unknown_opcode hop hsh, ?_⟩
      rw [step_of_unknown_opcode hr hop hge, hop, faultedAt, BitVec.ofNat_toNat, BitVec.setWidth_eq]
      rfl
    · exact loopAgreesWithStep_of_short hr hwin hsh hlen hd

/-- Settles O9: the decoder looks at all the Words at once and `exec` at the operands, and still the first fault is
that of the loop, which looks at one Word at a time. -/
theorem stepAgreesWithTheFetchLoop : Obligations.StepAgreesWithTheFetchLoop := by
  intro s hr
  obtain ⟨i, hwf, hloop, hstep⟩ | ⟨kind, info, hloop, hstep⟩ := loopAgreesWithStep hr
  · exact ⟨fun ws h => ⟨i, hwf, Except.ok.inj (hloop.symm.trans h), hstep⟩,
      fun e h => (nomatch hloop.symm.trans h)⟩
  · exact ⟨fun ws h => (nomatch hloop.symm.trans h),
      fun e h => ⟨kind, info, (Except.error.inj (hloop.symm.trans h)).symm, hstep⟩⟩

end Sys2Proof.Machine
end

section
/-! # Run control: `halt` and `noop` (spec/41_run_control.md R66, R67) -/

namespace Sys2Proof.Machine

theorem exec_halt (s : State) : exec .halt s = .next ((s.advance 1).setRun .halted) := rfl

theorem exec_noop (s : State) : exec .noop s = .next (s.advance 1) := rfl

theorem step_ne_next_of_ended {s : State} (h : s.ended) (t : State) : step s ≠ .next t :=
  fun hstep => h (stepsAreTakenOnlyWhileRunning s t hstep)

theorem ended_setRun_halted (s : State) : (s.setRun .halted).ended := by
  rw [State.ended, State.run_setRun]
  exact RunState.noConfusion

/-- Settles O28: the frame is that of an advance, which setting the run state leaves as it is, and an ended run takes
no step. -/
theorem haltEndsTheRun : Obligations.HaltEndsTheRun := by
  intro s
  obtain ⟨hregs, hip, hstack, hmem, -, hstreams, hmax⟩ := onlyIp_advance s 1
  exact ⟨rfl, _, exec_halt s, State.run_setRun _ _, hip, hregs, hstack, hmem, hstreams, hmax,
    step_ne_next_of_ended (ended_setRun_halted _)⟩

/-- Settles O29: `noop` is the advance by one Word alone. -/
theorem noopOnlyAdvances : Obligations.NoopOnlyAdvances :=
  fun s => ⟨rfl, _, exec_noop s, onlyIp_advance s 1⟩

end Sys2Proof.Machine
end

section
/-! # What executing an instruction answers: the converse of `exec_next` (spec/40_dispatch.md R58 to R63) -/

namespace Sys2Proof.Machine

theorem finish_of_ok {i : Instr} {s t : State} {body : Except Stop State} (h : body = .ok t) :
    finish i s body = .next t :=
  (finish_eq_next i s t body).2 (.inl h)

theorem popVal_of_stack_cons {s : State} {v : Val} {rest : List Val} (h : s.stack = v :: rest) :
    popVal s = .ok (v, s.setStack rest) :=
  (popVal_eq_ok _ _ _).2 ⟨rest, h, rfl⟩

/-- An instruction completes in every state that `Done` describes. -/
theorem exec_of_done {i : Instr} {s t : State} (h : Done i s t) : exec i s = .next t := by
  cases i with
  | halt | noop => cases h; rfl
  | set a b =>
    obtain ⟨ra, vb, ha, hb, rfl⟩ := h
    exact finish_of_ok (by rw [ha, hb]; exact writeReg_val ra vb _)
  | push a =>
    obtain ⟨va, ha, hroom, rfl⟩ := h
    exact finish_of_ok (by rw [ha]; exact (pushVal_eq_ok _ _ _).2 ⟨val_le va, hroom, by simp⟩)
  | pop a =>
    obtain ⟨ra, v, rest, ha, hst, rfl⟩ := h
    exact finish_of_ok (by rw [ha, popVal_of_stack_cons (s := s.advance 2) hst]; exact writeReg_val ra v _)
  | eq a b c =>
    obtain ⟨ra, vb, vc, ha, hb, hc, rfl⟩ := h
    refine finish_of_ok ?_
    rw [ha, hb, hc]
    exact (writeReg_eq_ok _ _ _ _).2 ⟨truthValue_le _, by simp [truthValue, BitVec.toNat_inj]⟩
  | gt a b c =>
    obtain ⟨ra, vb, vc, ha, hb, hc, rfl⟩ := h
    refine finish_of_ok ?_
    rw [ha, hb, hc]
    exact (writeReg_eq_ok _ _ _ _).2 ⟨truthValue_le _, by simp [truthValue]⟩
  | add a b c | mult a b c =>
    obtain ⟨ra, vb, vc, ha, hb, hc, rfl⟩ := h
    refine finish_of_ok ?_
    rw [ha, hb, hc]
    exact writeReg_of_le _ _ _ (Nat.le_of_lt_succ (Nat.mod_lt _ (by decide)))
  | mod a b c =>
    obtain ⟨ra, vb, vc, ha, hb, hc, hne, rfl⟩ := h
    have hrem := (remainder_eq_ok vb.toNat vc.toNat _).2 ⟨hne, rfl⟩
    refine finish_of_ok ?_
    rw [ha, hb, hc]
    change (remainder vb.toNat vc.toNat >>= _) = _
    rw [hrem]
    exact writeReg_of_le _ _ _ ((Nat.mod_le _ _).trans (val_le vb))
  | and a b c | or a b c =>
    obtain ⟨ra, vb, vc, ha, hb, hc, rfl⟩ := h
    exact finish_of_ok (by rw [ha, hb, hc]; exact writeReg_val ra _ _)
  | not a b =>
    obtain ⟨ra, vb, ha, hb, rfl⟩ := h
    exact finish_of_ok (by rw [ha, hb]; exact writeReg_of_le _ _ _ (Nat.sub_le _ _))
  | rmem a b =>
    obtain ⟨ra, vb, w, ha, hb, hw, hle, rfl⟩ := h
    have hread := (memRead_eq_ok vb.toNat s w).2 hw
    refine finish_of_ok ?_
    rw [ha, hb]
    change (memRead vb.toNat s >>= _) = _
    rw [hread]
    exact writeReg_of_le _ _ _ hle
  | wmem a b =>
    obtain ⟨va, vb, ha, hb, hlt, rfl⟩ := h
    exact finish_of_ok (by rw [ha, hb]; exact (memWrite_eq_ok _ _ _ _).2 ⟨hlt, rfl⟩)
  | jmp a =>
    obtain ⟨va, ha, rfl⟩ := h
    exact finish_of_ok (by rw [ha]; rfl)
  | jnz a b | jez a b =>
    obtain ⟨va, vb, ha, hb, rfl⟩ := h
    refine finish_of_ok ?_
    rw [ha, hb, apply_ite s.setIp]
    rfl
  | call a =>
    obtain ⟨va, ha, hle, hroom, rfl⟩ := h
    have hpush : pushVal (s.advance 2).ip (s.advance 2) = .ok _ := (pushVal_eq_ok _ _ _).2 ⟨hle, hroom, rfl⟩
    exact finish_of_ok (by rw [ha, hpush]; rfl)
  | ret =>
    obtain ⟨v, rest, hst, rfl⟩ := h
    exact finish_of_ok (by rw [popVal_of_stack_cons (s := s.advance 1) hst]; rfl)
  | out a =>
    obtain ⟨va, ha, rfl⟩ := h
    exact finish_of_ok (by rw [ha]; rfl)
  | inp a =>
    obtain ⟨ra, c, rest, ha, hin, rfl⟩ := h
    have hnext : nextInput (s.advance 2) = .ok (c, (s.advance 2).setInput rest) :=
      (nextInput_eq_ok _ _ _).2 ⟨rest, hin, rfl⟩
    have hle : c.toNat ≤ 32767 := by have := c.isLt; omega
    exact finish_of_ok (by rw [ha, hnext]; exact writeReg_of_le _ _ _ hle)

/-- An instruction raises InvalidOperand for the first of its operand Words that the token of its shape does not
take. -/
theorem raisesInvalidOperand {i : Instr} {op : Nat} {operands : List (Token × Word)} (s : State)
    (hop : i.opcode = op) (hsh : shapeOf op = some (operands.map Prod.fst))
    (hos : i.operands = (operands.map Prod.snd).map Operand.ofWord) : RaisesInvalidOperand i op operands s := by
  subst hop
  intro w hw
  exact exec_of_firstRefused s hsh hos (by rwa [← List.zip_of_prod rfl rfl])

theorem regOf_of_registerOfWord {w : Word} {r : RegIdx} (h : registerOfWord w = some r) : regOf (.ofWord w) = .ok r :=
  (regOf_eq_ok _ _).2 (ofWord_of_registerOfWord h)

theorem onlyReg_advance_setReg (s : State) (n : Nat) (r : RegIdx) (v : Val) :
    OnlyReg s ((s.advance n).setReg r v) r v.toNat (s.ip + n) :=
  ⟨⟨by rw [State.reg_setReg_self], fun j hj => State.reg_setReg_ne _ r j v hj⟩, rfl, rfl, ⟨rfl, fun _ => rfl⟩, rfl,
    ⟨rfl, rfl, rfl⟩, rfl⟩

theorem onlyStack_advance_setStack (s : State) (n : Nat) (st : List Val) :
    OnlyStack s ((s.advance n).setStack st) st (s.ip + n) :=
  ⟨fun _ => rfl, rfl, rfl, ⟨rfl, fun _ => rfl⟩, rfl, ⟨rfl, rfl, rfl⟩, rfl⟩

end Sys2Proof.Machine
end

section
/-! # Register move and stack: `set`, `push` and `pop` (spec/42_move_stack.md R68 to R70) -/

namespace Sys2Proof.Machine

/-! ### The three completions and the two ends of the stack -/

theorem exec_set {s : State} {a b : Operand} {ra : RegIdx} {vb : Val} (ha : regOf a = .ok ra)
    (hb : valOf s b = .ok vb) : exec (.set a b) s = .next ((s.advance 3).setReg ra vb) :=
  exec_of_done ⟨ra, vb, ha, hb, rfl⟩

theorem exec_push {s : State} {a : Operand} {va : Val} (ha : valOf s a = .ok va) (hroom : StackHasRoom s) :
    exec (.push a) s = .next ((s.advance 2).setStack (va :: s.stack)) :=
  exec_of_done ⟨va, ha, (hasRoom_iff s).2 hroom, rfl⟩

theorem exec_push_of_full {s : State} {a : Operand} {va : Val} (ha : valOf s a = .ok va) (hfull : ¬ StackHasRoom s) :
    exec (.push a) s = .refused .stackFull := by
  have hroom : s.hasRoom = false := Bool.eq_false_iff.2 (mt (hasRoom_iff s).1 hfull)
  refine (finish_eq_refused _ _ _ _).2 ?_
  rw [ha]
  exact (pushVal_eq_error _ _ _).2 (.inr ⟨val_le va, hroom, rfl⟩)

theorem exec_pop {s : State} {a : Operand} {ra : RegIdx} {v : Val} {rest : List Val} (ha : regOf a = .ok ra)
    (hst : s.stack = v :: rest) : exec (.pop a) s = .next (((s.advance 2).setStack rest).setReg ra v) :=
  exec_of_done ⟨ra, v, rest, ha, hst, rfl⟩

theorem exec_pop_of_empty {s : State} {a : Operand} {ra : RegIdx} (ha : regOf a = .ok ra) (hst : s.stack = []) :
    exec (.pop a) s = .next (faultedAt s .stackUnderflow 3 none) := by
  have hpop : popVal (s.advance 2) = .error (.raise .stackUnderflow none) := (popVal_eq_error _ _).2 ⟨hst, rfl⟩
  exact (finish_eq_next _ _ _ _).2 (.inr ⟨_, _, by rw [ha, hpop]; rfl, rfl⟩)

/-! ### The statements -/

/-- Settles O30: the resolved value is a Val, which the write guard always lets through. -/
theorem setCopiesTheValue : Obligations.SetCopiesTheValue := by
  refine fun s a b => ⟨rfl, fun ra vb ha hb => ?_, raisesInvalidOperand s rfl rfl rfl⟩
  obtain ⟨v, hv, rfl⟩ := (valueOfWord_eq_some s b vb).1 hb
  exact ⟨_, exec_set (regOf_of_registerOfWord ha) hv, onlyReg_advance_setReg s 3 ra v⟩

/-- Settles O31: the resolved value is a Val, so only the bound of the stack can stop the push. -/
theorem pushAddsTheValueOnTop : Obligations.PushAddsTheValueOnTop := by
  refine fun s a => ⟨rfl, fun va ha hroom => ?_, fun va ha hfull => ?_, raisesInvalidOperand s rfl rfl rfl⟩
  · obtain ⟨v, hv, rfl⟩ := (valueOfWord_eq_some s a va).1 ha
    rw [BitVec.ofNat_toNat, BitVec.setWidth_eq]
    exact ⟨_, exec_push hv hroom, onlyStack_advance_setStack s 2 _, val_le v⟩
  · obtain ⟨v, hv, -⟩ := (valueOfWord_eq_some s a va).1 ha
    exact exec_push_of_full hv hfull

/-- Settles O32: beside the stack, which is the rest already, the frame is that of a register write. -/
theorem popTakesTheTop : Obligations.PopTakesTheTop := by
  refine fun s a => ⟨rfl, fun ra v rest ha hst => ?_, fun ra ha => exec_pop_of_empty (regOf_of_registerOfWord ha),
    raisesInvalidOperand s rfl rfl rfl⟩
  obtain ⟨hreg, hip, hstack, hmem, hrun, hstreams, hmax⟩ := onlyReg_advance_setReg (s.setStack rest) 2 ra v
  exact ⟨_, exec_pop (regOf_of_registerOfWord ha) hst, hreg, hstack, hip, hmem, hrun, hstreams, hmax⟩

/-- The stack put back, what is left of the two instructions is the advance over both. -/
theorem advance_setStack_advance_setStack (s : State) (st : List Val) :
    (((s.advance 2).setStack st).advance 2).setStack s.stack = s.advance 4 := rfl

/-- Settles O33: the push leaves the value above the old stack, so the pop writes it and puts the old stack back. -/
theorem popAfterPushGivesTheValue : Obligations.PopAfterPushGivesTheValue := by
  intro s a b va rb ha hb hroom
  obtain ⟨v, hv, rfl⟩ := (valueOfWord_eq_some s a va).1 ha
  refine ⟨_, _, exec_push hv hroom, exec_pop (regOf_of_registerOfWord hb) (State.stack_setStack _ _), ?_⟩
  rw [advance_setStack_advance_setStack]
  exact onlyReg_advance_setReg s 4 rb v

end Sys2Proof.Machine
end

section
/-! # Comparison: `eq` and `gt` (spec/43_compare.md R71, R72) -/

namespace Sys2Proof.Machine

/-! ### An instruction of shape RVV, by the Val it writes -/

/-- An instruction of shape R,V,V computes `f` when it completes by writing the Val `g` of its two values to its
register and `g` is `f` on numbers: the frame and the InvalidOperand clause are the same for all of them. -/
theorem computesRVV_of_exec {op : Nat} {mk : Operand → Operand → Operand → Instr} {f : Nat → Nat → Nat}
    (g : Val → Val → Val) (hg : ∀ x y, (g x y).toNat = f x.toNat y.toNat)
    (hdec : ∀ a b c : Word, decode [BitVec.ofNat 16 op, a, b, c] = .ok (mk (.ofWord a) (.ofWord b) (.ofWord c), []))
    (hop : ∀ a b c, (mk a b c).opcode = op) (hos : ∀ a b c, (mk a b c).operands = [a, b, c])
    (hsh : shapeOf op = some [.R, .V, .V])
    (hexec : ∀ {s : State} {a b c : Operand} {ra : RegIdx} {x y : Val}, regOf a = .ok ra → valOf s b = .ok x →
      valOf s c = .ok y → exec (mk a b c) s = .next ((s.advance 4).setReg ra (g x y))) :
    ComputesRVV op mk f := by
  refine fun s a b c => ⟨hdec a b c, fun ra vb vc ha hb hc => ?_, raisesInvalidOperand s (hop _ _ _) hsh (hos _ _ _)⟩
  obtain ⟨x, hx, rfl⟩ := (valueOfWord_eq_some s b vb).1 hb
  obtain ⟨y, hy, rfl⟩ := (valueOfWord_eq_some s c vc).1 hc
  rw [← hg]
  exact ⟨_, hexec (regOf_of_registerOfWord ha) hx hy, onlyReg_advance_setReg s 4 ra (g x y)⟩

/-! ### The truth value of a comparison -/

/-- The Val a comparison writes: 1 when it holds, 0 when not. -/
def truthVal (p : Prop) [Decidable p] : Val := BitVec.ofNat 15 (if p then 1 else 0)

theorem toNat_truthVal (p : Prop) [Decidable p] : (truthVal p).toNat = if p then 1 else 0 := by
  by_cases h : p
  · rw [truthVal, if_pos h]; rfl
  · rw [truthVal, if_neg h]; rfl

theorem exec_eq {s : State} {a b c : Operand} {ra : RegIdx} {x y : Val} (ha : regOf a = .ok ra)
    (hb : valOf s b = .ok x) (hc : valOf s c = .ok y) :
    exec (.eq a b c) s = .next ((s.advance 4).setReg ra (truthVal (x = y))) :=
  exec_of_done ⟨ra, x, y, ha, hb, hc, rfl⟩

theorem exec_gt {s : State} {a b c : Operand} {ra : RegIdx} {x y : Val} (ha : regOf a = .ok ra)
    (hb : valOf s b = .ok x) (hc : valOf s c = .ok y) :
    exec (.gt a b c) s = .next ((s.advance 4).setReg ra (truthVal (y.toNat < x.toNat))) :=
  exec_of_done ⟨ra, x, y, ha, hb, hc, rfl⟩

/-! ### The statements -/

/-- Settles O34: two Vals are equal exactly when their numbers are. -/
theorem eqWritesOneWhenEqual : Obligations.EqWritesOneWhenEqual := by
  have hval (x y : Val) : (truthVal (x = y)).toNat = if x.toNat = y.toNat then 1 else 0 := by
    rw [toNat_truthVal]
    exact if_congr BitVec.toNat_inj.symm rfl rfl
  exact computesRVV_of_exec (fun x y => truthVal (x = y)) hval (fun _ _ _ => rfl) (fun _ _ _ => rfl)
    (fun _ _ _ => rfl) rfl exec_eq

/-- Settles O35: the model compares the two numbers already, and strictly. -/
theorem gtWritesOneWhenGreater : Obligations.GtWritesOneWhenGreater :=
  computesRVV_of_exec (fun x y => truthVal (y.toNat < x.toNat)) (fun _ _ => toNat_truthVal _) (fun _ _ _ => rfl)
    (fun _ _ _ => rfl) (fun _ _ _ => rfl) rfl exec_gt

end Sys2Proof.Machine
end

section
/-! # Control transfer: `jmp`, `jnz`, `jez`, `call` and `ret` (spec/44_control_transfer.md R73 to R79) -/

namespace Sys2Proof.Machine

/-! ### The state of a transfer: `ip` at the target, and the stack as it is left -/

theorem onlyIp_setIp (s : State) (a : Nat) : OnlyIp s (s.setIp a) a :=
  ⟨fun _ => rfl, rfl, rfl, ⟨rfl, fun _ => rfl⟩, rfl, ⟨rfl, rfl, rfl⟩, rfl⟩

theorem onlyStack_setStack_setIp (s : State) (st : List Val) (a : Nat) : OnlyStack s ((s.setStack st).setIp a) st a :=
  ⟨fun _ => rfl, rfl, rfl, ⟨rfl, fun _ => rfl⟩, rfl, ⟨rfl, rfl, rfl⟩, rfl⟩

/-- The stack put back, what is left of the two transfers is the last `ip`. -/
theorem setStack_setIp_setStack_setIp (s : State) (st : List Val) (a b : Nat) :
    ((((s.setStack st).setIp a).setStack s.stack).setIp b) = s.setIp b := rfl

/-! ### The completions and the ends without one -/

theorem exec_jmp {s : State} {a : Operand} {va : Val} (ha : valOf s a = .ok va) :
    exec (.jmp a) s = .next (s.setIp va.toNat) :=
  exec_of_done ⟨va, ha, rfl⟩

theorem exec_jnz {s : State} {a b : Operand} {va vb : Val} (ha : valOf s a = .ok va) (hb : valOf s b = .ok vb) :
    exec (.jnz a b) s = .next (s.setIp (if va.toNat ≠ 0 then vb.toNat else s.ip + 3)) :=
  exec_of_done ⟨va, vb, ha, hb, rfl⟩

theorem exec_jez {s : State} {a b : Operand} {va vb : Val} (ha : valOf s a = .ok va) (hb : valOf s b = .ok vb) :
    exec (.jez a b) s = .next (s.setIp (if va.toNat = 0 then vb.toNat else s.ip + 3)) :=
  exec_of_done ⟨va, vb, ha, hb, rfl⟩

theorem exec_call {s : State} {a : Operand} {va : Val} (ha : valOf s a = .ok va) (hip : s.ip + 2 ≤ 32767)
    (hroom : StackHasRoom s) :
    exec (.call a) s = .next ((s.setStack (BitVec.ofNat 15 (s.ip + 2) :: s.stack)).setIp va.toNat) :=
  exec_of_done ⟨va, ha, hip, (hasRoom_iff s).2 hroom, rfl⟩

theorem exec_call_of_full {s : State} {a : Operand} {va : Val} (ha : valOf s a = .ok va) (hip : s.ip + 2 ≤ 32767)
    (hfull : ¬ StackHasRoom s) : exec (.call a) s = .refused .stackFull := by
  have hroom : s.hasRoom = false := Bool.eq_false_iff.2 (mt (hasRoom_iff s).1 hfull)
  have hpush : pushVal (s.advance 2).ip (s.advance 2) = .error (.refuse .stackFull) :=
    (pushVal_eq_error _ _ _).2 (.inr ⟨hip, hroom, rfl⟩)
  exact (finish_eq_refused _ _ _ _).2 (by rw [ha, hpush]; rfl)

/-- The write guard of R14 comes before the bound of the stack (notes/assumptions/6.md), so room does not matter. -/
theorem exec_call_of_high {s : State} {a : Operand} {va : Val} (ha : valOf s a = .ok va) (hip : 32767 < s.ip + 2) :
    exec (.call a) s = .next (faultedAt s .nonCanonicalValue 17 (some (s.ip + 2))) := by
  have hpush : pushVal (s.advance 2).ip (s.advance 2) = .error (.raise .nonCanonicalValue (some (s.ip + 2))) :=
    (pushVal_eq_error _ _ _).2 (.inl ⟨hip, rfl⟩)
  exact (finish_eq_next _ _ _ _).2 (.inr ⟨_, _, by rw [ha, hpush]; rfl, rfl⟩)

theorem exec_ret {s : State} {v : Val} {rest : List Val} (hst : s.stack = v :: rest) :
    exec .ret s = .next ((s.setStack rest).setIp v.toNat) :=
  exec_of_done ⟨v, rest, hst, rfl⟩

theorem exec_ret_of_empty {s : State} (hst : s.stack = []) :
    exec .ret s = .next (faultedAt s .stackUnderflow 18 none) := by
  have hpop : popVal (s.advance 1) = .error (.raise .stackUnderflow none) := (popVal_eq_error _ _).2 ⟨hst, rfl⟩
  exact (finish_eq_next _ _ _ _).2 (.inr ⟨_, _, by rw [hpop]; rfl, rfl⟩)

/-! ### A branch, by the address it chooses -/

/-- An instruction of shape V,V branches on `taken` when it completes by setting `ip` to what `taken` chooses: the frame
and the InvalidOperand clause are the same for both of them. -/
theorem branches_of_exec {op : Nat} {mk : Operand → Operand → Instr} {taken : Nat → Bool}
    (hdec : ∀ a b : Word, decode [BitVec.ofNat 16 op, a, b] = .ok (mk (.ofWord a) (.ofWord b), []))
    (hop : ∀ a b, (mk a b).opcode = op) (hos : ∀ a b, (mk a b).operands = [a, b]) (hsh : shapeOf op = some [.V, .V])
    (hexec : ∀ {s : State} {a b : Operand} {x y : Val}, valOf s a = .ok x → valOf s b = .ok y →
      exec (mk a b) s = .next (s.setIp (if taken x.toNat then y.toNat else s.ip + 3))) :
    Branches op mk taken := by
  refine fun s a b => ⟨hdec a b, fun va vb ha hb => ?_, raisesInvalidOperand s (hop _ _) hsh (hos _ _)⟩
  obtain ⟨x, hx, rfl⟩ := (valueOfWord_eq_some s a va).1 ha
  obtain ⟨y, hy, rfl⟩ := (valueOfWord_eq_some s b vb).1 hb
  exact ⟨_, hexec hx hy, onlyIp_setIp s _⟩

/-! ### The statements -/

/-- Settles O36: the resolved value goes into `ip` as it is, with no check of the target. -/
theorem jmpGoesToTheValue : Obligations.JmpGoesToTheValue := by
  refine fun s a => ⟨rfl, fun va ha => ?_, raisesInvalidOperand s rfl rfl rfl⟩
  obtain ⟨v, hv, rfl⟩ := (valueOfWord_eq_some s a va).1 ha
  exact ⟨_, exec_jmp hv, onlyIp_setIp s v.toNat⟩

/-- Settles O37: `!=` on numbers says what the model's `≠ 0` decides. -/
theorem jnzGoesWhenNotZero : Obligations.JnzGoesWhenNotZero :=
  branches_of_exec (fun _ _ => rfl) (fun _ _ => rfl) (fun _ _ => rfl) rfl fun ha hb => by
    simp only [exec_jnz ha hb, bne_iff_ne]

/-- Settles O38: `==` on numbers says what the model's `= 0` decides. -/
theorem jezGoesWhenZero : Obligations.JezGoesWhenZero :=
  branches_of_exec (fun _ _ => rfl) (fun _ _ => rfl) (fun _ _ => rfl) rfl fun ha hb => by
    simp only [exec_jez ha hb, beq_iff_eq]

/-- Settles O39: the operand is resolved, then the return address meets the guard, then the bound of the stack. -/
theorem callPushesTheReturnAddress : Obligations.CallPushesTheReturnAddress := by
  refine fun s a => ⟨rfl, fun va ha hip hroom => ?_, fun va ha hip hfull => ?_, fun va ha hip => ?_,
    raisesInvalidOperand s rfl rfl rfl⟩
  all_goals obtain ⟨v, hv, rfl⟩ := (valueOfWord_eq_some s a va).1 ha
  · exact ⟨_, exec_call hv hip hroom, onlyStack_setStack_setIp s _ _⟩
  · exact exec_call_of_full hv hip hfull
  · exact exec_call_of_high hv hip

/-- Settles O40: `ret` is the pop of the stack, whose top becomes `ip` and is a Val already. -/
theorem retGoesToTheTop : Obligations.RetGoesToTheTop :=
  fun s => ⟨rfl, fun v rest hst => ⟨_, exec_ret hst, onlyStack_setStack_setIp s rest v.toNat⟩, exec_ret_of_empty⟩

/-- Settles O41: the return address is small enough to be a Val, so `ret` reads back the number that `call` pushed. -/
theorem retAfterCallResumes : Obligations.RetAfterCallResumes := by
  intro s a va ha hip hroom
  obtain ⟨v, hv, rfl⟩ := (valueOfWord_eq_some s a va).1 ha
  have hret : (BitVec.ofNat 15 (s.ip + 2)).toNat = s.ip + 2 :=
    (BitVec.toNat_ofNat _ _).trans (Nat.mod_eq_of_lt (Nat.lt_succ_of_le hip))
  refine ⟨_, _, exec_call hv hip hroom, State.ip_setIp _ _, exec_ret rfl, ?_⟩
  rw [setStack_setIp_setStack_setIp, hret]
  exact onlyIp_setIp s (s.ip + 2)

end Sys2Proof.Machine
end

section
/-! # Arithmetic: `add`, `mult` and `mod` (spec/45_arith.md R80 to R83) -/

namespace Sys2Proof.Machine

/-! ### A result as a Val -/

/-- A number reduced modulo 32768 is a Val already, so the write keeps it. -/
theorem toNat_ofNat_mod_modulus (n : Nat) : (BitVec.ofNat 15 (n % 32768)).toNat = n % 32768 :=
  (BitVec.toNat_ofNat _ _).trans (Nat.mod_mod n 32768)

/-- A remainder is at most the dividend, so the write keeps it. -/
theorem toNat_ofNat_mod (x y : Val) : (BitVec.ofNat 15 (x.toNat % y.toNat)).toNat = x.toNat % y.toNat :=
  (BitVec.toNat_ofNat _ _).trans (Nat.mod_eq_of_lt ((Nat.mod_le _ _).trans_lt x.isLt))

/-! ### The completions and the zero divisor -/

theorem exec_add {s : State} {a b c : Operand} {ra : RegIdx} {x y : Val} (ha : regOf a = .ok ra)
    (hb : valOf s b = .ok x) (hc : valOf s c = .ok y) :
    exec (.add a b c) s = .next ((s.advance 4).setReg ra (BitVec.ofNat 15 ((x.toNat + y.toNat) % 32768))) :=
  exec_of_done ⟨ra, x, y, ha, hb, hc, rfl⟩

theorem exec_mult {s : State} {a b c : Operand} {ra : RegIdx} {x y : Val} (ha : regOf a = .ok ra)
    (hb : valOf s b = .ok x) (hc : valOf s c = .ok y) :
    exec (.mult a b c) s = .next ((s.advance 4).setReg ra (BitVec.ofNat 15 ((x.toNat * y.toNat) % 32768))) :=
  exec_of_done ⟨ra, x, y, ha, hb, hc, rfl⟩

theorem exec_mod {s : State} {a b c : Operand} {ra : RegIdx} {x y : Val} (ha : regOf a = .ok ra)
    (hb : valOf s b = .ok x) (hc : valOf s c = .ok y) (hne : y.toNat ≠ 0) :
    exec (.mod a b c) s = .next ((s.advance 4).setReg ra (BitVec.ofNat 15 (x.toNat % y.toNat))) :=
  exec_of_done ⟨ra, x, y, ha, hb, hc, hne, rfl⟩

theorem exec_mod_of_zero {s : State} {a b c : Operand} {ra : RegIdx} {x y : Val} (ha : regOf a = .ok ra)
    (hb : valOf s b = .ok x) (hc : valOf s c = .ok y) (hzero : y.toNat = 0) :
    exec (.mod a b c) s = .next (faultedAt s .divideByZero 11 none) := by
  have hrem : remainder x.toNat y.toNat = .error (.raise .divideByZero none) :=
    (remainder_eq_error _ _ _).2 ⟨hzero, rfl⟩
  refine (finish_eq_next _ _ _ _).2 (.inr ⟨.divideByZero, none, ?_, rfl⟩)
  rw [ha, hb, hc]
  change (remainder x.toNat y.toNat >>= _) = _
  rw [hrem]
  rfl

/-! ### The statements -/

/-- Settles O42: the model reduces the sum before the write, which then keeps it. -/
theorem addWritesTheSumModulo32768 : Obligations.AddWritesTheSumModulo32768 :=
  computesRVV_of_exec (fun x y => BitVec.ofNat 15 ((x.toNat + y.toNat) % 32768)) (fun _ _ => toNat_ofNat_mod_modulus _)
    (fun _ _ _ => rfl) (fun _ _ _ => rfl) (fun _ _ _ => rfl) rfl exec_add

/-- Settles O43: the model reduces the product before the write, which then keeps it. -/
theorem multWritesTheProductModulo32768 : Obligations.MultWritesTheProductModulo32768 :=
  computesRVV_of_exec (fun x y => BitVec.ofNat 15 ((x.toNat * y.toNat) % 32768)) (fun _ _ => toNat_ofNat_mod_modulus _)
    (fun _ _ _ => rfl) (fun _ _ _ => rfl) (fun _ _ _ => rfl) rfl exec_mult

/-- Settles O44: the quotient is that of the division on numbers, and a zero divisor is met after the operands. -/
theorem modWritesTheRemainder : Obligations.ModWritesTheRemainder := by
  refine fun s a b c => ⟨rfl, fun ra vb vc ha hb hc hne => ?_, fun ra vb ha hb hc => ?_,
    raisesInvalidOperand s rfl rfl rfl⟩
  · obtain ⟨x, hx, rfl⟩ := (valueOfWord_eq_some s b vb).1 hb
    obtain ⟨y, hy, rfl⟩ := (valueOfWord_eq_some s c vc).1 hc
    have hframe := onlyReg_advance_setReg s 4 ra (BitVec.ofNat 15 (x.toNat % y.toNat))
    rw [toNat_ofNat_mod] at hframe
    exact ⟨_, x.toNat % y.toNat, x.toNat / y.toNat, exec_mod (regOf_of_registerOfWord ha) hx hy hne, hframe,
      Nat.mod_lt _ (Nat.pos_of_ne_zero hne), (Nat.div_add_mod' _ _).symm⟩
  · obtain ⟨x, hx, -⟩ := (valueOfWord_eq_some s b vb).1 hb
    obtain ⟨y, hy, hzero⟩ := (valueOfWord_eq_some s c 0).1 hc
    exact exec_mod_of_zero (regOf_of_registerOfWord ha) hx hy hzero

end Sys2Proof.Machine
end

section
/-! # Logic: `and`, `or` and `not` (spec/46_logic.md R84 to R87) -/

namespace Sys2Proof.Machine

/-! ### The complement of a Val -/

/-- A complement is at most 32767, so the write keeps it. -/
theorem toNat_ofNat_complement (x : Val) : (BitVec.ofNat 15 (32767 - x.toNat)).toNat = 32767 - x.toNat :=
  (BitVec.toNat_ofNat _ _).trans (Nat.mod_eq_of_lt (Nat.lt_succ_of_le (Nat.sub_le _ _)))

/-- Taking a number of 15 bits from 32767, which has all of them set, borrows nowhere: each bit is inverted. -/
theorem testBit_complement {v i : Nat} (hv : v < 2 ^ 15) (hi : i < 15) : (32767 - v).testBit i = !v.testBit i := by
  have hsub : 32767 - v = 2 ^ 15 - (v + 1) := by omega
  rw [hsub, Nat.testBit_two_pow_sub_succ hv, decide_eq_true hi, Bool.true_and]

theorem valueOfWord_lt {s : State} {w : Word} {v : Nat} (h : valueOfWord s w = some v) : v < 2 ^ 15 := by
  obtain ⟨x, -, rfl⟩ := (valueOfWord_eq_some s w v).1 h
  exact x.isLt

/-! ### The completions -/

theorem exec_and {s : State} {a b c : Operand} {ra : RegIdx} {x y : Val} (ha : regOf a = .ok ra)
    (hb : valOf s b = .ok x) (hc : valOf s c = .ok y) :
    exec (.and a b c) s = .next ((s.advance 4).setReg ra (x &&& y)) :=
  exec_of_done ⟨ra, x, y, ha, hb, hc, rfl⟩

theorem exec_or {s : State} {a b c : Operand} {ra : RegIdx} {x y : Val} (ha : regOf a = .ok ra)
    (hb : valOf s b = .ok x) (hc : valOf s c = .ok y) :
    exec (.or a b c) s = .next ((s.advance 4).setReg ra (x ||| y)) :=
  exec_of_done ⟨ra, x, y, ha, hb, hc, rfl⟩

theorem exec_not {s : State} {a b : Operand} {ra : RegIdx} {x : Val} (ha : regOf a = .ok ra)
    (hb : valOf s b = .ok x) :
    exec (.not a b) s = .next ((s.advance 3).setReg ra (BitVec.ofNat 15 (32767 - x.toNat))) :=
  exec_of_done ⟨ra, x, ha, hb, rfl⟩

/-! ### The statements -/

/-- Settles O45: the AND of two Vals is the AND of their numbers. -/
theorem andWritesTheBitwiseAnd : Obligations.AndWritesTheBitwiseAnd :=
  computesRVV_of_exec (fun x y => x &&& y) BitVec.toNat_and (fun _ _ _ => rfl) (fun _ _ _ => rfl)
    (fun _ _ _ => rfl) rfl exec_and

/-- Settles O46: the OR of two Vals is the OR of their numbers. -/
theorem orWritesTheBitwiseOr : Obligations.OrWritesTheBitwiseOr :=
  computesRVV_of_exec (fun x y => x ||| y) BitVec.toNat_or (fun _ _ _ => rfl) (fun _ _ _ => rfl)
    (fun _ _ _ => rfl) rfl exec_or

/-- Settles O47: the complement stays a Val, which the write guard lets through. -/
theorem notWritesTheComplement : Obligations.NotWritesTheComplement := by
  refine fun s a b => ⟨rfl, fun ra vb ha hb => ?_, raisesInvalidOperand s rfl rfl rfl⟩
  obtain ⟨x, hx, rfl⟩ := (valueOfWord_eq_some s b vb).1 hb
  have hframe := onlyReg_advance_setReg s 3 ra (BitVec.ofNat 15 (32767 - x.toNat))
  rw [toNat_ofNat_complement] at hframe
  exact ⟨_, exec_not (regOf_of_registerOfWord ha) hx, hframe⟩

/-- Settles O48: the numbers of R85 to R87, read bit by bit. -/
theorem logicWorksBitByBit : Obligations.LogicWorksBitByBit := by
  intro s a b c ra vb vc ha hb hc
  obtain ⟨-, hand, -⟩ := andWritesTheBitwiseAnd s a b c
  obtain ⟨-, hor, -⟩ := orWritesTheBitwiseOr s a b c
  obtain ⟨-, hnot, -⟩ := notWritesTheComplement s a b
  obtain ⟨t, ht, ⟨htv, -⟩, -⟩ := hand ra vb vc ha hb hc
  obtain ⟨u, hu, ⟨huv, -⟩, -⟩ := hor ra vb vc ha hb hc
  obtain ⟨n, hn, ⟨hnv, -⟩, -⟩ := hnot ra vb ha hb
  refine ⟨t, u, n, ht, hu, hn, fun i hi => ?_⟩
  rw [htv, huv, hnv]
  exact ⟨Nat.testBit_and vb vc i, Nat.testBit_or vb vc i, testBit_complement (valueOfWord_lt hb) hi⟩

end Sys2Proof.Machine
end

section
/-! # Program memory access: `rmem` and `wmem` (spec/47_mem_access.md R88 to R90) -/

namespace Sys2Proof.Machine

/-! ### The Word a store writes -/

/-- A Val is stored as the Word of its own number (R90). -/
theorem wordOfVal_eq_ofNat (v : Val) : wordOfVal v = BitVec.ofNat 16 v.toNat :=
  (BitVec.ofNat_toNat 16 v).symm

/-! ### The completions, the high cell and the address beyond the memory -/

theorem exec_rmem {s : State} {a b : Operand} {ra : RegIdx} {x : Val} {w : Word} (ha : regOf a = .ok ra)
    (hb : valOf s b = .ok x) (hread : s.mem.read x.toNat = some w) (hle : w.toNat ≤ 32767) :
    exec (.rmem a b) s = .next ((s.advance 3).setReg ra (BitVec.ofNat 15 w.toNat)) :=
  exec_of_done ⟨ra, x, w, ha, hb, hread, hle, rfl⟩

/-- With both operands resolved, `rmem` is the read and the guarded write. -/
theorem exec_rmem_of_resolved {s : State} {a b : Operand} {ra : RegIdx} {x : Val} (ha : regOf a = .ok ra)
    (hb : valOf s b = .ok x) :
    exec (.rmem a b) s =
      finish (.rmem a b) s (memRead x.toNat s >>= fun w => writeReg ra w.toNat (s.advance 3)) := by
  rw [exec, execRmem, ha, hb]
  rfl

theorem exec_rmem_of_high {s : State} {a b : Operand} {ra : RegIdx} {x : Val} {w : Word} (ha : regOf a = .ok ra)
    (hb : valOf s b = .ok x) (hread : s.mem.read x.toNat = some w) (hhigh : 32767 < w.toNat) :
    exec (.rmem a b) s = .next (faultedAt s .nonCanonicalValue 15 (some w.toNat)) := by
  have hcell : memRead x.toNat s = .ok w := (memRead_eq_ok _ _ _).2 hread
  have hguard : writeReg ra w.toNat (s.advance 3) = .error (.raise .nonCanonicalValue (some w.toNat)) :=
    (writeReg_eq_error _ _ _ _).2 ⟨hhigh, rfl⟩
  rw [exec_rmem_of_resolved ha hb, hcell]
  exact (finish_eq_next _ _ _ _).2 (.inr ⟨_, _, hguard, rfl⟩)

theorem exec_rmem_of_beyond {s : State} {a b : Operand} {ra : RegIdx} {x : Val} (ha : regOf a = .ok ra)
    (hb : valOf s b = .ok x) (hsize : s.mem.size ≤ x.toNat) :
    exec (.rmem a b) s = .next (faultedAt s .memoryFault 15 (some x.toNat)) := by
  have hcell : memRead x.toNat s = .error (.raise .memoryFault (some x.toNat)) :=
    (memRead_eq_error _ _ _).2 ⟨hsize, rfl⟩
  rw [exec_rmem_of_resolved ha hb, hcell]
  exact (finish_eq_next _ _ _ _).2 (.inr ⟨_, _, rfl, rfl⟩)

theorem exec_wmem {s : State} {a b : Operand} {x y : Val} (ha : valOf s a = .ok x) (hb : valOf s b = .ok y)
    (hlt : x.toNat < s.mem.size) :
    exec (.wmem a b) s = .next ((s.advance 3).setMem (s.mem.write x.toNat (wordOfVal y))) :=
  exec_of_done ⟨x, y, ha, hb, hlt, rfl⟩

theorem exec_wmem_of_beyond {s : State} {a b : Operand} {x y : Val} (ha : valOf s a = .ok x) (hb : valOf s b = .ok y)
    (hsize : s.mem.size ≤ x.toNat) :
    exec (.wmem a b) s = .next (faultedAt s .memoryFault 16 (some x.toNat)) := by
  have hcell : memWrite x.toNat (wordOfVal y) (s.advance 3) = .error (.raise .memoryFault (some x.toNat)) :=
    (memWrite_eq_error _ _ _ _).2 ⟨hsize, rfl⟩
  exact (finish_eq_next _ _ _ _).2 (.inr ⟨_, _, by rw [ha, hb]; exact hcell, rfl⟩)

/-! ### The statements -/

/-- Settles O49: the bound of the memory is met first, then the write guard on the Word that was read. -/
theorem rmemLoadsTheCell : Obligations.RmemLoadsTheCell := by
  refine fun s a b => ⟨rfl, fun ra vb w ha hb hread hle => ?_, fun ra vb w ha hb hread hhigh => ?_,
    fun ra vb ha hb hsize => ?_, raisesInvalidOperand s rfl rfl rfl⟩
  all_goals
    obtain ⟨x, hx, rfl⟩ := (valueOfWord_eq_some s b vb).1 hb
    have hra := regOf_of_registerOfWord ha
  · have hframe := onlyReg_advance_setReg s 3 ra (BitVec.ofNat 15 w.toNat)
    rw [BitVec.toNat_ofNat, Nat.mod_eq_of_lt (Nat.lt_succ_of_le hle)] at hframe
    exact ⟨_, exec_rmem hra hx hread hle, hframe⟩
  · exact exec_rmem_of_high hra hx hread hhigh
  · exact exec_rmem_of_beyond hra hx hsize

/-- Settles O50: the frame is that of the advance, and the memory is the old one with one cell written. -/
theorem wmemStoresTheValue : Obligations.WmemStoresTheValue := by
  refine fun s a b => ⟨rfl, fun va vb ha hb hlt => ?_, fun va vb ha hb hsize => ?_, raisesInvalidOperand s rfl rfl rfl⟩
  all_goals
    obtain ⟨x, hx, rfl⟩ := (valueOfWord_eq_some s a va).1 ha
    obtain ⟨y, hy, rfl⟩ := (valueOfWord_eq_some s b vb).1 hb
  · have hcell : (s.mem.write x.toNat (wordOfVal y)).read x.toNat = some (BitVec.ofNat 16 y.toNat) := by
      rw [Memory.read_write_self _ _ _ hlt, wordOfVal_eq_ofNat]
    have hothers (k : Nat) : k ≠ x.toNat → (s.mem.write x.toNat (wordOfVal y)).read k = s.mem.read k :=
      s.mem.read_write_ne _ k _
    obtain ⟨hregs, hip, hstack, -, hrun, hstreams, hmax⟩ := onlyIp_advance s 3
    exact ⟨_, exec_wmem hx hy hlt, hcell, hothers, Memory.size_write _ _ _, hip, hregs, hstack, hrun, hstreams, hmax⟩
  · exact exec_wmem_of_beyond hx hy hsize

end Sys2Proof.Machine
end

section
/-! # Character input and output: `out` and `in` (spec/48_io.md R91 to R94) -/

namespace Sys2Proof.Machine

/-! ### The completions and the two ways to be without a byte -/

theorem exec_out {s : State} {a : Operand} {va : Val} (ha : valOf s a = .ok va) :
    exec (.out a) s = .next ((s.advance 2).setOutput (s.output ++ [va])) :=
  exec_of_done ⟨va, ha, rfl⟩

theorem exec_inp {s : State} {a : Operand} {ra : RegIdx} {c : Byte} {rest : List Byte} (ha : regOf a = .ok ra)
    (hin : s.input = c :: rest) :
    exec (.inp a) s = .next (((s.advance 2).setInput rest).setReg ra (BitVec.ofNat 15 c.toNat)) :=
  exec_of_done ⟨ra, c, rest, ha, hin, rfl⟩

theorem exec_inp_of_pending {s : State} {a : Operand} {ra : RegIdx} (ha : regOf a = .ok ra) (hin : s.input = [])
    (hend : s.inputEnd = .pending) : exec (.inp a) s = .fault .awaitingInput := by
  have hnext : nextInput (s.advance 2) = .error (.stuck .awaitingInput) :=
    (nextInput_eq_error _ _).2 ⟨hin, .inr ⟨hend, rfl⟩⟩
  exact (finish_eq_fault _ _ _ _).2 (by rw [ha, hnext]; rfl)

theorem exec_inp_of_ended {s : State} {a : Operand} {ra : RegIdx} (ha : regOf a = .ok ra) (hin : s.input = [])
    (hend : s.inputEnd = .ended) : exec (.inp a) s = .next (faultedAt s .inputExhausted 20 none) := by
  have hnext : nextInput (s.advance 2) = .error (.raise .inputExhausted none) :=
    (nextInput_eq_error _ _).2 ⟨hin, .inl ⟨hend, rfl⟩⟩
  exact (finish_eq_next _ _ _ _).2 (.inr ⟨_, _, by rw [ha, hnext]; rfl, rfl⟩)

/-- A register takes a byte whole. -/
theorem toNat_ofNat_byte (c : Byte) : (BitVec.ofNat 15 c.toNat).toNat = c.toNat :=
  Nat.mod_eq_of_lt (c.isLt.trans (by decide))

theorem deliver_of_pending {s : State} (bytes : List Byte) (h : s.inputEnd = .pending) :
    s.deliver bytes = s.setInput (s.input ++ bytes) := by
  rw [State.deliver, h]

/-! ### The statements -/

/-- Settles O52: the frame is that of the advance, and the appended Val has the number of the operand Word. -/
theorem outAppendsTheCode : Obligations.OutAppendsTheCode := by
  refine fun s a => ⟨rfl, fun va ha => ?_, raisesInvalidOperand s rfl rfl rfl⟩
  obtain ⟨v, hv, rfl⟩ := (valueOfWord_eq_some s a va).1 ha
  obtain ⟨hregs, hip, hstack, hmem, hrun, ⟨-, hin, hend⟩, hmax⟩ := onlyIp_advance s 2
  exact ⟨_, exec_out hv, List.map_append, hin, hend, hip, hregs, hstack, hmem, hrun, hmax⟩

/-- Settles O53: beside the input, which is the rest already, the frame is that of a register write. -/
theorem inTakesOneByte : Obligations.InTakesOneByte := by
  refine fun s a => ⟨rfl, fun ra c rest ha hin => ?_, fun ra ha hin hend t => ?_,
    fun ra ha => exec_inp_of_ended (regOf_of_registerOfWord ha), raisesInvalidOperand s rfl rfl rfl⟩
  · obtain ⟨hreg, hip, hstack, hmem, hrun, ⟨hout, hrest, hend⟩, hmax⟩ :=
      onlyReg_advance_setReg (s.setInput rest) 2 ra (BitVec.ofNat 15 c.toNat)
    rw [toNat_ofNat_byte] at hreg
    exact ⟨_, exec_inp (regOf_of_registerOfWord ha) hin, hreg, hrest, hend, hout, hip, hstack, hmem, hrun, hmax⟩
  · rw [exec_inp_of_pending (regOf_of_registerOfWord ha) hin hend]
    exact nofun

/-- Settles O54: the delivery and the end of the input change nothing but the input, and lead to the two enabled cases
of `in`. -/
theorem inWaitsForTheEnvironment : Obligations.InWaitsForTheEnvironment := by
  intro s a ra c ha hin hend
  have hra := regOf_of_registerOfWord ha
  refine ⟨exec_inp_of_pending hra hin hend, ?_, exec_inp_of_ended hra hin rfl⟩
  obtain ⟨-, hbyte, -⟩ := inTakesOneByte (s.setInput [c]) a
  obtain ⟨t, hexec, hreg, -, -, -, hip, -⟩ := hbyte ra c [] ha rfl
  rw [deliver_of_pending _ hend, hin]
  exact ⟨t, hexec, hreg, hip⟩

end Sys2Proof.Machine
end

section
/-! # Faults: the raised-by column of R96, and the load of an odd image (spec/60_exceptions.md R96, R97) -/

namespace Sys2Proof.Machine

/-- Every opcode is an instruction's, and only three of them have a shape without tokens (R46). -/
theorem has_operands_of_shapeOf {n : Nat} {sh : List Token} (h : shapeOf n = some sh) (hlen : 0 < sh.length) :
    n ≤ 21 ∧ n ∉ [0, 18, 21] := by
  unfold shapeOf at h
  split at h
  case h_1 | h_2 | h_3 => cases h; exact absurd hlen (Nat.lt_irrefl 0)
  case h_23 => exact nomatch h
  all_goals decide

/-- Settles O14: `mayRaise` for a fault of the instruction itself; before it, the missing opcode, the Word that is no
opcode, and the instruction that is cut short, which has operands. -/
theorem faultKindsByOpcode : Obligations.FaultKindsByOpcode := by
  intro s t r h ht
  obtain ⟨hr, ⟨i, rest, hd, he⟩ | ⟨reject, hd, rfl⟩⟩ := step_next h
  · obtain ⟨op, _, _, _, hopc, hw, -⟩ := words_at_ip hd
    obtain hdone | ⟨kind, info, hmay, rfl⟩ := exec_next he
    · exact absurd ht (hdone.changes.run_ne_faulted hr r)
    · cases ht
      refine .inr ⟨op, congrArg some hw, ?_⟩
      rw [hopc]
      cases kind with
      | malformedProgram | unknownOpcode => exact nomatch hmay
      | memoryFault =>
        have hop : i.opcode ∈ [15, 16] := of_decide_eq_true hmay
        simp only [List.mem_cons, List.not_mem_nil, or_false] at hop ⊢
        omega
      | invalidOperand => exact ⟨i.opcode_le, of_decide_eq_true hmay⟩
      | stackUnderflow | divideByZero | inputExhausted | nonCanonicalValue => exact of_decide_eq_true hmay
  · obtain ⟨hwin, rfl⟩ | ⟨op, os, hwin, ⟨-, hge, rfl⟩ | ⟨sh, hsh, hlen, rfl⟩⟩ := decode_eq_error _ _ hd
    · cases ht
      exact .inl ⟨rfl, congrArg List.head? hwin⟩
    · cases ht
      exact .inr ⟨op, congrArg List.head? hwin, hge⟩
    · have hops := has_operands_of_shapeOf hsh (Nat.zero_lt_of_lt hlen)
      rw [rejectShort_eq] at ht
      cases hrefused : firstRefused (sh.zip os) with
      | none | some w =>
        rw [hrefused] at ht
        cases ht
        exact .inr ⟨op, congrArg List.head? hwin, hops⟩

/-- Settles O56: the record is that of the load, and a Faulted run takes no step. -/
theorem oddImageIsMalformed : Obligations.OddImageIsMalformed :=
  fun _ _ hodd _ => ⟨_, boot_of_odd hodd, rfl, step_ne_next_of_ended RunState.noConfusion⟩

end Sys2Proof.Machine
end
